-- ==== Sys2Proof/Word.lean ====
section
/-! DEFINITION. The word types of the block (00_scope R11): bytes, host words, counters and beats are unsigned bit
vectors whose arithmetic is modulo two to the width. -/

namespace Sys2Proof

/-- `u8` of 00_scope R11: pixel, count, value and header bytes. -/
abbrev Byte := BitVec 8

/-- A host register or command word, 32 bits (REG_WIDTH of 00_scope R8). -/
abbrev Word := BitVec 32

/-- A byte offset in the register space, 8 bits (REG_ADDR_WIDTH of 00_scope R8, 20_memory R37). -/
abbrev RegAddr := BitVec 8

/-- One transfer on the IN port, `{end, data[7:0]}` (20_memory R38, 30_encoding R66). -/
abbrev Beat := BitVec 9

end Sys2Proof
end

