-- ==== Sys2Proof/Syntax.lean ====
section
/-! DEFINITION. The commands of the block: one constructor for each row of spec/opcode_table.json (30_encoding R69).
A command has no operands (30_encoding R67). -/

namespace Sys2Proof

/-- The five host commands of 30_encoding R69. -/
inductive Instr where
  /-- NOP, 40_control R94. -/
  | nop
  /-- HDR_PARSE, 41_header R100: the source's `readHeader`. -/
  | hdrParse
  /-- HDR_EMIT, 41_header R108: the source's `writeHeader`. -/
  | hdrEmit
  /-- ENCODE, 42_encoder R118. -/
  | encode
  /-- DECODE, 43_decoder R131. -/
  | decode
  deriving DecidableEq, Repr

end Sys2Proof
end

