-- ==== Sys2Proof/Machine/Types.lean ====
section
/-! DEFINITION. The named values that stand in the state: tokens, error codes, decoder phases, the sequencer's opcode,
the two agents and the host's statements. -/

namespace Sys2Proof.Machine

/-- A token of the IN port (20_memory R38): `Byte(b)` or `END`. -/
inductive Token where
  /-- `Byte(b)`. -/
  | byte (b : Byte)
  /-- `END`: the source is exhausted. -/
  | endTok
  deriving DecidableEq, Repr

/-- The error kinds of 60_exceptions R145; their 4-bit codes are `Err.code`. Codes 7 to 15 are never written and have
no constructor. -/
inductive Err where
  /-- NONE, code 0. -/
  | none
  /-- NotABitmap, code 1, raised by HDR_PARSE. -/
  | notABitmap
  /-- TruncatedStream, code 2, raised by DECODE. -/
  | truncatedStream
  /-- EmptyBuffer, code 3, raised by ENCODE. -/
  | emptyBuffer
  /-- TruncatedHeader, code 4, raised by HDR_PARSE. -/
  | truncatedHeader
  /-- NoHeader, code 5, raised by HDR_EMIT. -/
  | noHeader
  /-- IllegalCommand, code 6, raised by ILLEGAL. -/
  | illegalCommand
  deriving DecidableEq, Repr

/-- D_PHASE (10_state R15): COUNT = 0, VALUE = 1, EMIT = 2; value 3 is unused and has no constructor. -/
inductive Phase where
  /-- A count byte or END is awaited. -/
  | count
  /-- The value byte is awaited. -/
  | value
  /-- Copies of D_VAL are being emitted. -/
  | emit
  deriving DecidableEq, Repr

/-- What the register OP holds (10_state R15, R18): a legal command's opcode or the internal value ILLEGAL. -/
inductive Op where
  /-- The opcode of a legal command, 0x0 to 0x4. -/
  | cmd (i : Instr)
  /-- ILLEGAL, 0xF. -/
  | illegal
  deriving DecidableEq, Repr

/-- Who takes the next step of the total order of 20_memory R56. -/
inductive Agent where
  /-- The host. -/
  | host
  /-- The block. -/
  | block
  deriving DecidableEq, Repr

/-- One statement of the host's program: the host steps of 00_scope R13, the host interactions of 70_reset_and_hazards
R171 and the script statements of 30_encoding R79 and R80. -/
inductive HostStmt where
  /-- `wr REG, imm`: a register write at a byte offset. -/
  | wr (off : RegAddr) (w : Word)
  /-- `rd REG`: a register read at a byte offset. -/
  | rd (off : RegAddr)
  /-- `push`: one token beat on the IN port. -/
  | push (beat : Beat)
  /-- The host takes one byte that the OUT port holds (70 R171, output drain). That taking is a statement of the host's
  one program is the model's choice (log entry 21). -/
  | take
  /-- The host asserts reset (70 R165). -/
  | reset
  /-- `wait`: read STATUS, and again while its BUSY bit is 1 (30_encoding R80). -/
  | poll
  /-- `expect REG[.FIELD] == v`: the field is bits `hi` down to `lo` of the register (30_encoding R79). -/
  | expect (off : RegAddr) (hi lo : Nat) (v : Word)
  deriving DecidableEq, Repr

end Sys2Proof.Machine
end

