-- ==== Sys2Proof/WellFormed.lean ====
section
/-! DEFINITION. Which instructions and host statements are well formed. -/

namespace Sys2Proof

/-- Every command is well formed: a command has no operand fields (30_encoding R67), so there is nothing to check.
The match names every constructor, so a new command cannot slip past. -/
def Instr.wf : Instr → Bool
  | .nop => true
  | .hdrParse => true
  | .hdrEmit => true
  | .encode => true
  | .decode => true

/-- A host statement is well formed when the field an `expect` names is `lo ≤ hi ≤ 31` (registers are 32 bits,
20_memory R49) and the expected value fits in it; every other statement is. -/
def Machine.HostStmt.wf : Machine.HostStmt → Bool
  | .expect _ hi lo v => decide (lo ≤ hi) && decide (hi ≤ 31) && decide (v.toNat < 2 ^ (hi + 1 - lo))
  | .wr _ _ => true
  | .rd _ => true
  | .push _ => true
  | .take => true
  | .reset => true
  | .poll => true

end Sys2Proof
end

