-- ==== Sys2Proof/Decode.lean ====
section
/-! DEFINITION. Decoding a CMD word (30_encoding R63 to R70), and the encoder: the command word of each command. -/

namespace Sys2Proof

/-- Why a command word is illegal (30_encoding R70). -/
inductive IllegalWord where
  /-- A reserved bit, 31:4, is 1. -/
  | reservedBits
  /-- Bits 31:4 are 0 and OP is 0x5 to 0xF. -/
  | reservedOpcode
  deriving DecidableEq, Repr

/-- What a CMD word decodes to: a legal command, or ILLEGAL with its reason. -/
inductive Decoded where
  /-- A row of the opcode table. -/
  | legal (i : Instr)
  /-- ILLEGAL of 30_encoding R65. -/
  | illegal (why : IllegalWord)
  deriving DecidableEq, Repr

/-- CMD.RSV, bits 31:4 (30_encoding R64). -/
def cmdReserved (w : Word) : BitVec 28 := w.extractLsb' 4 28

/-- CMD.OP, bits 3:0 (30_encoding R64). -/
def cmdOp (w : Word) : BitVec 4 := w.extractLsb' 0 4

/-- The decode function of 30_encoding R65, total on every 32-bit word. -/
def decode (w : Word) : Decoded :=
  if cmdReserved w ≠ 0#28 then .illegal .reservedBits
  else if cmdOp w = 0x0#4 then .legal .nop
  else if cmdOp w = 0x1#4 then .legal .hdrParse
  else if cmdOp w = 0x2#4 then .legal .hdrEmit
  else if cmdOp w = 0x3#4 then .legal .encode
  else if cmdOp w = 0x4#4 then .legal .decode
  else .illegal .reservedOpcode

/-- The opcode of a command (30_encoding R69). -/
def opcode : Instr → BitVec 4
  | .nop => 0x0#4
  | .hdrParse => 0x1#4
  | .hdrEmit => 0x2#4
  | .encode => 0x3#4
  | .decode => 0x4#4

/-- The full command word: the opcode zero-extended to 32 bits (30_encoding R69). -/
def encode (i : Instr) : Word := (opcode i).zeroExtend 32

/-- The command the decoder reads from a table word. A command is one 32-bit word (30_encoding R63), written to CMD
whole, so bit `k` of the table is bit `k` of the word; bits from `nbits` up are 0. More than 32 bits is no command. -/
def decodeTableWord (nbits w : Nat) : Option Instr :=
  if nbits ≤ 32 then
    match decode (BitVec.ofNat 32 (w % 2 ^ nbits)) with
    | .legal i => some i
    | .illegal _ => none
  else none

end Sys2Proof
end

