-- ==== Sys2Proof/Config.lean ====
section
/-! DEFINITION. What one implementation of the block fixes: the open parameters of 00_scope R9 and 20_memory R53. -/

namespace Sys2Proof.Config

/-- A FIFO depth (IN_FIFO_DEPTH, OUT_FIFO_DEPTH of 00_scope R9): unbounded, as R9 lets a model take it, or a positive
integer, written as one more than `extra` so that it cannot be zero. The block's own two depths are fields of State, so
that a claim about every state is a claim about every depth (log entry 4). -/
inductive FifoDepth where
  /-- Never full. -/
  | unbounded
  /-- `extra + 1` places. -/
  | finite (extra : Nat)
  deriving DecidableEq, Repr

/-- RLE_BASE (20_memory R53): where a platform puts the register space; open, and no rule of the block depends on it
(log entry 16). -/
opaque rleBase : Nat

/-- The system address at which a platform's host finds the register at offset `off` (20_memory R53). -/
def busAddress (off : RegAddr) : Nat := rleBase + off.toNat

end Sys2Proof.Config
end

