-- ==== Sys2Proof/Machine/State.lean ====
section
/-! DEFINITION. The machine's state as plain data, its state right after power-on, and the reasons a step can stop. -/

namespace Sys2Proof.Machine

/-- The header buffer's contents as a list of (address, byte) cells in one canonical form (`Memory.wf` in Ops.lean):
addresses strictly rising and below 54, no cell holding 0x00, which is what an unlisted address reads as (the reset
value of every byte of `hbuf`, 10_state R29, R35; log entry 6). -/
abbrev Memory := List Host.Cell

/-- The whole state: what 10_state gives the block, then the two open FIFO depths and the OUT port's fill, then the
host's side (the model's own: log entries 2, 3, 10, 12). -/
structure State where
  /-- STATUS.BUSY (10_state R20, R21). -/
  busy : Bool
  /-- STATUS.DONE (10_state R20, R21). -/
  done : Bool
  /-- STATUS.HDR_VALID (10_state R20, R22). -/
  hdrValid : Bool
  /-- STATUS.OVR (10_state R20, R23). -/
  ovr : Bool
  /-- STATUS.ERR (10_state R20, R24). -/
  err : Err
  /-- IN_COUNT (10_state R26). -/
  inCount : Word
  /-- OUT_COUNT (10_state R27). -/
  outCount : Word
  /-- OP (10_state R15, R18). -/
  op : Op
  /-- H_IDX, 6 bits, 0 to 54 (10_state R15). -/
  hIdx : BitVec 6
  /-- E_PREV (10_state R15). -/
  ePrev : Byte
  /-- E_CNT (10_state R15, R16). -/
  eCnt : Byte
  /-- E_HAVE (10_state R15). -/
  eHave : Bool
  /-- E_FIN (10_state R15). -/
  eFin : Bool
  /-- D_PHASE (10_state R15, R17). -/
  dPhase : Phase
  /-- D_REM (10_state R15, R17). -/
  dRem : Byte
  /-- D_VAL (10_state R15, R17). -/
  dVal : Byte
  /-- `hbuf`, the 54 header bytes (10_state R29). -/
  hbuf : Memory
  /-- `inq`, head first (10_state R30). -/
  inq : List Token
  /-- `oq`, head first (10_state R31). -/
  oq : List Byte
  /-- `out`, oldest first (10_state R32). -/
  out : List Byte
  /-- IN_FIFO_DEPTH (00_scope R9). -/
  inDepth : Config.FifoDepth
  /-- OUT_FIFO_DEPTH (00_scope R9). -/
  outDepth : Config.FifoDepth
  /-- How many bytes of `out` the host has taken from the OUT port (70 R171, R176; log entry 5). -/
  outTaken : Nat
  /-- The host statements still to run, next first (model's own; 00_scope R13). -/
  host : List HostStmt
  /-- Who moves next, for as far as it is chosen (model's own; 20_memory R56). -/
  sched : List Agent
  /-- What the host's register reads have returned, oldest first (model's own; 20_memory R49). -/
  reads : List (RegAddr × Word)
  deriving DecidableEq, Repr

/-- No fault stops the block: it takes no trap (60_exceptions R141), every error ends the command and leaves the block
idle (R155), and every register offset can be read and written (20_memory R46). So there is no constructor, and nobody
raises one. -/
inductive Fault where
  deriving DecidableEq, Repr

/-- The reasons a meaning may be refused. -/
inductive Refusal where
  /-- The command has no meaning yet: raised by `exec`'s refused arms alone (safe). Every command has its meaning, so
  no arm raises it. -/
  | notModelled (mnemonic : String)
  deriving DecidableEq, Repr

/-- What a step or a command answers. -/
abbrev Result := Host.Outcome State Fault Refusal

/-- The machine right after reset at power-on: 10_state R35 and 70 R166 for the block; `out` empty, both FIFOs
unbounded, and a host that has nothing to do (log entries 4 and 12). -/
def State.reset : State where
  busy := false
  done := false
  hdrValid := false
  ovr := false
  err := .none
  inCount := 0
  outCount := 0
  op := .cmd .nop
  hIdx := 0
  ePrev := 0
  eCnt := 0
  eHave := false
  eFin := false
  dPhase := .count
  dRem := 0
  dVal := 0
  hbuf := []
  inq := []
  oq := []
  out := []
  inDepth := .unbounded
  outDepth := .unbounded
  outTaken := 0
  host := []
  sched := []
  reads := []

end Sys2Proof.Machine
end

