-- ==== Sys2Proof/Machine/Ops.lean ====
section
/-! DEFINITION. The named operations every command shares: the header buffer's bytes, the FIFOs, acceptance, completion
and error termination, the drain step, reset, and the form of a command's own steps. -/

namespace Sys2Proof.Machine

/-! The header buffer (00_scope R12, 10_state R29). -/

/-- `hbuf[a]`: an address no cell lists reads as 0x00, the reset value (10_state R35). -/
def Memory.read : Memory → Nat → Byte
  | [], _ => 0
  | c :: rest, a => if c.1 = a then c.2 else Memory.read rest a

/-- `MemWrite(a, 1, b)` (00_scope R12): the cell of `a` becomes `b`; writing 0x00 removes it, so that the form stays
canonical. -/
def Memory.write : Memory → Nat → Byte → Memory
  | [], a, b => if b = 0 then [] else [(a, b)]
  | c :: rest, a, b =>
    if a < c.1 then (if b = 0 then c :: rest else (a, b) :: c :: rest)
    else if a = c.1 then (if b = 0 then rest else (a, b) :: rest)
    else c :: Memory.write rest a b

/-- The canonical form: addresses strictly rising and below 54, no cell holding 0x00. -/
abbrev Memory.wf (m : Memory) : Prop :=
  m.Pairwise (fun c d => c.1 < d.1) ∧ ∀ c ∈ m, c.1 < 54 ∧ c.2 ≠ 0

/-! The FIFOs (00_scope R9, 20_memory R40). -/

/-- Whether a FIFO of depth `d` that holds `level` entries can take one more. -/
def hasRoom (d : Config.FifoDepth) (level : Nat) : Bool :=
  match d with
  | .unbounded => true
  | .finite extra => decide (level < extra + 1)

/-- The IN port can take a token. -/
def State.inRoom (s : State) : Bool := hasRoom s.inDepth s.inq.length

/-- The OUT port can take a byte: it holds the delivered bytes the host has not taken (log entry 5). -/
def State.outRoom (s : State) : Bool := hasRoom s.outDepth (s.out.length - s.outTaken)

/-! Completion, error termination, acceptance, draining, reset. -/

/-- `complete(e)` (00_scope R12, 40_control R90). -/
def State.complete (e : Err) (s : State) : State :=
  { s with busy := false, done := true, err := e }

/-- `raise E` (00_scope R12, 60_exceptions R141): the block's whole "exception entry". There is no return from it
(60_exceptions R155): the next acceptance clears ERR. -/
def State.raise (e : Err) (s : State) : State := s.complete e

/-- Acceptance, less the command's own initialisation (40_control R88). -/
def State.accept (o : Op) (s : State) : State :=
  { s with op := o, busy := true, done := false, err := .none, ovr := false, inCount := 0, outCount := 0 }

/-- `OutPush(b)` (00_scope R12). -/
def State.outPush (b : Byte) (s : State) : State := { s with oq := s.oq ++ [b] }

/-- The effect of the drain step on the head byte `b` of `oq`, `rest` being its tail (40_control R92). -/
def State.drain (b : Byte) (rest : List Byte) (s : State) : State :=
  { s with oq := rest, out := s.out ++ [b], outCount := s.outCount + 1 }

/-- A host step that applies reset (70 R165 to R167): every element of the block takes its reset value, the delivered
bytes stay, and the host's own side and the FIFO depths are not the block's to reset (log entry 13). -/
def State.applyReset (s : State) : State :=
  { State.reset with
    out := s.out, inDepth := s.inDepth, outDepth := s.outDepth, outTaken := s.outTaken,
    host := s.host, sched := s.sched, reads := s.reads }

/-! The form of a command. -/

/-- The condition all of a command's rules share: BUSY = 1, OP names the command, `oq` is empty (40_control R86, R93;
41_header R100, R108; 42_encoder R118; 43_decoder R131). -/
def State.running (o : Op) (s : State) : Bool := s.busy && decide (s.op = o) && s.oq.isEmpty

/-- What a command does next (40_control R81): while no command is in progress it is accepted, with its initialisation
`init` (R88, R89); while it is in progress it takes the command step `body`; otherwise none of its rules is enabled and
nothing changes (R86). `body` leaves the state as it is where the command waits for a token (log entry 1). -/
def command (o : Op) (init body : State → State) (s : State) : State :=
  if s.busy then (if s.running o then body s else s) else init (s.accept o)

end Sys2Proof.Machine
end

