-- ==== Sys2Proof/Machine/Operands.lean ====
section
/-! DEFINITION. The operand forms: tokens from the IN port (00_scope R12, 30_encoding R66) and the values assembled
from header bytes (30_encoding R67, R73 to R75; 20_memory R47, R48). -/

namespace Sys2Proof.Machine

/-! Tokens. -/

/-- The token a beat `{end, data[7:0]}` carries: with `end = 1` the data is ignored (30_encoding R66). -/
def Token.ofBeat (w : Beat) : Token := if w.getLsbD 8 then .endTok else .byte (w.extractLsb' 0 8)

/-- The beat that carries a token; END is sent with data 0x00 (95_test_vectors L3, 0x100). -/
def Token.beat : Token → Beat
  | .byte b => b.zeroExtend 9
  | .endTok => 0x100#9

/-- `InPeek()`: the head of `inq`, if there is one (00_scope R12). -/
def State.inPeek (s : State) : Option Token := s.inq.head?

/-- `InTake()` (00_scope R12): the head token leaves `inq`; a `Byte` adds one to IN_COUNT, modulo 2^32 (10_state R26).
A step takes a token only after peeking one, so `inq` is not empty. -/
def State.inTake (s : State) : State :=
  match s.inq with
  | [] => s
  | .byte _ :: rest => { s with inq := rest, inCount := s.inCount + 1 }
  | .endTok :: rest => { s with inq := rest }

/-! The header record. -/

/-- `MemRead(a, 2)` (00_scope R12): little-endian (20_memory R43; log entry 7). -/
def Memory.read2 (m : Memory) (a : Nat) : BitVec 16 := m.read (a + 1) ++ m.read a

/-- `MemRead(a, 4)` (00_scope R12): little-endian (20_memory R43; log entry 7). -/
def Memory.read4 (m : Memory) (a : Nat) : Word :=
  m.read (a + 3) ++ m.read (a + 2) ++ m.read (a + 1) ++ m.read a

/-- The fields of the header record, in record order (30_encoding R73). -/
inductive HdrField where
  | signature | fileSize | reserved | dataOffset | headerSize | width | height | planes | bitsPerPixel
  | compression | imageSize | xPixelsPerMeter | yPixelsPerMeter | colorsUsed | importantColors
  deriving DecidableEq, Repr

/-- The byte offset of a field (30_encoding R73). -/
def HdrField.offset : HdrField → Nat
  | .signature => 0
  | .fileSize => 2
  | .reserved => 6
  | .dataOffset => 10
  | .headerSize => 14
  | .width => 18
  | .height => 22
  | .planes => 26
  | .bitsPerPixel => 28
  | .compression => 30
  | .imageSize => 34
  | .xPixelsPerMeter => 38
  | .yPixelsPerMeter => 42
  | .colorsUsed => 46
  | .importantColors => 50

/-- The width of a field in bytes (30_encoding R73). -/
def HdrField.bytes : HdrField → Nat
  | .signature | .planes | .bitsPerPixel => 2
  | _ => 4

/-- The field view (20_memory R44, R47): the signature zero-extended, planes and bitsPerPixel sign-extended, every other
field its 32-bit pattern. -/
def HdrField.view (m : Memory) : HdrField → Word
  | .signature => (m.read2 0).zeroExtend 32
  | .planes => (m.read2 26).signExtend 32
  | .bitsPerPixel => (m.read2 28).signExtend 32
  | .fileSize => m.read4 2
  | .reserved => m.read4 6
  | .dataOffset => m.read4 10
  | .headerSize => m.read4 14
  | .width => m.read4 18
  | .height => m.read4 22
  | .compression => m.read4 30
  | .imageSize => m.read4 34
  | .xPixelsPerMeter => m.read4 38
  | .yPixelsPerMeter => m.read4 42
  | .colorsUsed => m.read4 46
  | .importantColors => m.read4 50

/-- The signed value of a field (30_encoding R74): the two's-complement reading of its view. -/
def HdrField.signedValue (m : Memory) (f : HdrField) : Int := (f.view m).toInt

/-- HDR_RAW[k] (20_memory R48): for `k = 13` only the two last header bytes, above them zeros. -/
def Memory.rawWord (m : Memory) (k : Nat) : Word :=
  if k = 13 then 0#16 ++ m.read 53 ++ m.read 52 else m.read4 (4 * k)

/-- The signature test (30_encoding R75, 41_header R105): the bytes 0x42 and 0x4D, in that order. -/
def Memory.signatureValid (m : Memory) : Bool := decide (m.read 0 = 0x42#8) && decide (m.read 1 = 0x4D#8)

end Sys2Proof.Machine
end

