-- ==== Sys2Proof/Machine/Control.lean ====
section
/-! DEFINITION. NOP (40_control R94) and the internal command ILLEGAL (40_control R95). -/

namespace Sys2Proof.Machine

/-- The one command step of NOP (40_control R94). -/
def nopStep (s : State) : State := s.complete .none

/-- NOP (40_control R94): accepted with no initialisation (R89), then completes. -/
def execNop (s : State) : Result := .next (command (.cmd .nop) id nopStep s)

/-- The one command step of ILLEGAL (40_control R95). -/
def illegalStep (s : State) : State := s.raise .illegalCommand

/-- ILLEGAL (40_control R95), which any word of 30_encoding R70 starts: no row of the opcode table, so no arm of
`exec`; the sequencer calls it. -/
def execIllegal (s : State) : Result := .next (command .illegal id illegalStep s)

end Sys2Proof.Machine
end

