-- ==== Sys2Proof/Machine/Decoder.lean ====
section
/-! DEFINITION. The decoder: DECODE (43_decoder R131). -/

namespace Sys2Proof.Machine

/-- DE_CNT (43_decoder R131, R133): the count byte, unsigned and unchanged. -/
def deCnt (c : Byte) (s : State) : State := { s.inTake with dRem := c, dPhase := .value }

/-- DE_VAL (43_decoder R131). -/
def deVal (v : Byte) (s : State) : State := { s.inTake with dVal := v, dPhase := .emit }

/-- DE_OUT (43_decoder R131): one copy of the value. -/
def deOut (s : State) : State := { s.outPush s.dVal with dRem := s.dRem - 1 }

/-- DE_NEXT (43_decoder R131). -/
def deNext (s : State) : State := { s with dPhase := .count }

/-- The command step of DECODE (43_decoder R131); in phases COUNT and VALUE with no token to peek no rule is enabled. -/
def decodeStep (s : State) : State :=
  match s.dPhase with
  | .count =>
    match s.inPeek with
    | some (.byte c) => deCnt c s
    | some .endTok => s.inTake.complete .none
    | none => s
  | .value =>
    match s.inPeek with
    | some (.byte v) => deVal v s
    | some .endTok => s.inTake.raise .truncatedStream
    | none => s
  | .emit => if s.dRem.toNat > 0 then deOut s else deNext s

/-- Whether a rule of DECODE is enabled, BUSY, OP and `oq` permitting (43_decoder R131). -/
def decodeReady (s : State) : Bool := decide (s.dPhase = .emit) || s.inPeek.isSome

/-- DECODE (43_decoder R131); its acceptance sets D_PHASE to COUNT (40_control R89). -/
def execDecode (s : State) : Result :=
  .next (command (.cmd .decode) (fun t => { t with dPhase := .count }) decodeStep s)

end Sys2Proof.Machine
end

