-- ==== Sys2Proof/Machine/Encoder.lean ====
section
/-! DEFINITION. The encoder: ENCODE (42_encoder R118). -/

namespace Sys2Proof.Machine

/-- EN_FIRST (42_encoder R118, R121): the run counter starts at 1. -/
def enFirst (b : Byte) (s : State) : State :=
  { s.inTake with ePrev := b, eCnt := 1, eHave := true }

/-- EN_SAME (42_encoder R118, R122): one more of the same byte. -/
def enSame (s : State) : State := { s.inTake with eCnt := s.eCnt + 1 }

/-- The pair of the run in hand, `OutPush(E_CNT)` then `OutPush(E_PREV)` (42_encoder R118, R120). -/
def pushPair (s : State) : State := (s.outPush s.eCnt).outPush s.ePrev

/-- EN_FLUSH (42_encoder R118, R120): the old run's pair, and a new run of one. -/
def enFlush (b : Byte) (s : State) : State :=
  { pushPair s.inTake with ePrev := b, eCnt := 1 }

/-- EN_LAST (42_encoder R118, R123): the last run's pair. -/
def enLast (s : State) : State := { pushPair s.inTake with eFin := true }

/-- The command step of ENCODE (42_encoder R118); with no token to peek no rule is enabled, but for EN_DONE, which needs
none. Where E_FIN = 1, EN_DONE is taken whatever E_HAVE is (log entry 8). -/
def encodeStep (s : State) : State :=
  if s.eFin then s.complete .none
  else
    match s.inPeek with
    | none => s
    | some .endTok => if s.eHave then enLast s else s.inTake.raise .emptyBuffer
    | some (.byte b) =>
      if s.eHave then
        if b = s.ePrev ∧ s.eCnt.toNat < 255 then enSame s else enFlush b s
      else enFirst b s

/-- Whether a rule of ENCODE is enabled, BUSY, OP and `oq` permitting (42_encoder R118). -/
def encodeReady (s : State) : Bool := s.eFin || s.inPeek.isSome

/-- ENCODE (42_encoder R118); its acceptance clears E_HAVE and E_FIN (40_control R89). -/
def execEncode (s : State) : Result :=
  .next (command (.cmd .encode) (fun t => { t with eHave := false, eFin := false }) encodeStep s)

end Sys2Proof.Machine
end

