-- ==== Sys2Proof/Machine/Header.lean ====
section
/-! DEFINITION. The header unit: HDR_PARSE (41_header R100) and HDR_EMIT (41_header R108). -/

namespace Sys2Proof.Machine

/-- HP_BYTE (41_header R100, R104): the token's byte goes to `hbuf[H_IDX]`. -/
def hpByte (b : Byte) (s : State) : State :=
  { s.inTake with hbuf := s.hbuf.write s.hIdx.toNat b, hIdx := s.hIdx + 1 }

/-- HP_CHECK (41_header R100, R102, R105): the signature decides, after all 54 bytes. -/
def hpCheck (s : State) : State :=
  if s.hbuf.signatureValid then { s with hdrValid := true }.complete .none else s.raise .notABitmap

/-- The command step of HDR_PARSE (41_header R100); with no token to peek, or H_IDX beyond 54 (log entry 9), no rule is
enabled. -/
def hdrParseStep (s : State) : State :=
  if s.hIdx.toNat < 54 then
    match s.inPeek with
    | some (.byte b) => hpByte b s
    | some .endTok => s.inTake.raise .truncatedHeader
    | none => s
  else if s.hIdx.toNat = 54 then hpCheck s
  else s

/-- Whether a rule of HDR_PARSE is enabled, BUSY, OP and `oq` permitting (41_header R100). -/
def hdrParseReady (s : State) : Bool :=
  (decide (s.hIdx.toNat < 54) && s.inPeek.isSome) || decide (s.hIdx.toNat = 54)

/-- HDR_PARSE (41_header R100); its acceptance clears HDR_VALID and H_IDX (40_control R89). -/
def execHdrParse (s : State) : Result :=
  .next (command (.cmd .hdrParse) (fun t => { t with hdrValid := false, hIdx := 0 }) hdrParseStep s)

/-- HE_BYTE (41_header R108): the next header byte goes to `oq`. -/
def heByte (s : State) : State :=
  { s.outPush (s.hbuf.read s.hIdx.toNat) with hIdx := s.hIdx + 1 }

/-- The command step of HDR_EMIT (41_header R108): HE_GATE, HE_BYTE, HE_DONE; with H_IDX beyond 54 (log entry 9) no
rule is enabled. -/
def hdrEmitStep (s : State) : State :=
  if s.hdrValid then
    if s.hIdx.toNat < 54 then heByte s
    else if s.hIdx.toNat = 54 then s.complete .none
    else s
  else s.raise .noHeader

/-- Whether a rule of HDR_EMIT is enabled, BUSY, OP and `oq` permitting (41_header R108). -/
def hdrEmitReady (s : State) : Bool := !s.hdrValid || decide (s.hIdx.toNat ≤ 54)

/-- HDR_EMIT (41_header R108); its acceptance clears H_IDX (40_control R89). -/
def execHdrEmit (s : State) : Result :=
  .next (command (.cmd .hdrEmit) (fun t => { t with hIdx := 0 }) hdrEmitStep s)

end Sys2Proof.Machine
end

