-- ==== Sys2Proof/Machine/Flags.lean ====
section
/-! DEFINITION. The flags: the STATUS word (10_state R19, R20), the error codes (60_exceptions R145) and the 4-bit value
of OP (10_state R18). -/

namespace Sys2Proof.Machine

/-- The code of an error kind (60_exceptions R145). -/
def Err.code : Err → BitVec 4
  | .none => 0
  | .notABitmap => 1
  | .truncatedStream => 2
  | .emptyBuffer => 3
  | .truncatedHeader => 4
  | .noHeader => 5
  | .illegalCommand => 6

/-- The value of the register OP (10_state R18): the opcode, or 0xF for ILLEGAL. -/
def Op.code : Op → BitVec 4
  | .cmd i => opcode i
  | .illegal => 0xF

/-- The width-2 value of D_PHASE (10_state R15). -/
def Phase.code : Phase → BitVec 2
  | .count => 0
  | .value => 1
  | .emit => 2

/-- STATUS (10_state R20): BUSY, DONE, HDR_VALID, OVR in bits 0 to 3, ERR in bits 7:4, zeros above. -/
def State.statusWord (s : State) : Word :=
  0#24 ++ s.err.code ++ BitVec.ofBool s.ovr ++ BitVec.ofBool s.hdrValid ++ BitVec.ofBool s.done ++ BitVec.ofBool s.busy

end Sys2Proof.Machine
end

