-- ==== Sys2Proof/Machine/Registers.lean ====
section
/-! DEFINITION. The host register map and register reads (20_memory R44 to R49). -/

namespace Sys2Proof.Machine

/-- What an offset of the register space reaches (20_memory R44). -/
inductive Reg where
  | cmd
  | status
  | inCount
  | outCount
  | field (f : HdrField)
  | raw (k : Nat)
  | unmapped
  deriving DecidableEq, Repr

/-- The register of the word at offset `4 * k` (20_memory R44). -/
def regOfIndex (k : Nat) : Reg :=
  match k with
  | 0 => .cmd
  | 1 => .status
  | 2 => .inCount
  | 3 => .outCount
  | 4 => .field .signature
  | 5 => .field .fileSize
  | 6 => .field .reserved
  | 7 => .field .dataOffset
  | 8 => .field .headerSize
  | 9 => .field .width
  | 10 => .field .height
  | 11 => .field .planes
  | 12 => .field .bitsPerPixel
  | 13 => .field .compression
  | 14 => .field .imageSize
  | 15 => .field .xPixelsPerMeter
  | 16 => .field .yPixelsPerMeter
  | 17 => .field .colorsUsed
  | 18 => .field .importantColors
  | _ => if 32 ≤ k ∧ k ≤ 45 then .raw (k - 32) else .unmapped

/-- The register an access at byte offset `off` reaches: bits 1:0 of the offset are ignored (20_memory R45). -/
def regAt (off : RegAddr) : Reg := regOfIndex (off.toNat / 4)

/-- A register's value as the host reads it: CMD reads 0 (10_state R25), an unmapped offset reads 0 (20_memory R46). -/
def State.regValue (s : State) : Reg → Word
  | .cmd => 0
  | .status => s.statusWord
  | .inCount => s.inCount
  | .outCount => s.outCount
  | .field f => f.view s.hbuf
  | .raw k => s.hbuf.rawWord k
  | .unmapped => 0

/-- A host register read (20_memory R49): a value and no side effect on the block, whatever HDR_VALID and BUSY are
(R47, R59). -/
def State.regRead (s : State) (off : RegAddr) : Word := s.regValue (regAt off)

end Sys2Proof.Machine
end

