-- ==== Sys2Proof/Machine/Sequencer.lean ====
section
/-! DEFINITION. The command sequencer and the host's steps: CMD writes (40_control R87, R88), the block step
(40_control R86), the host step (00_scope R13), and whose turn it is (20_memory R56). -/

namespace Sys2Proof.Machine

/-! The block. -/

/-- A write of `w` to CMD: dropped with OVR set while a command is in progress (40_control R87), else the acceptance of
the command it decodes to (R88). -/
def writeCmd (w : Word) (s : State) : Result :=
  if s.busy then .next { s with ovr := true }
  else
    match decode w with
    | .legal i => exec i s
    | .illegal _ => execIllegal s

/-- A host register write: only CMD has an effect (20_memory R46). -/
def regWrite (off : RegAddr) (w : Word) (s : State) : Result :=
  if regAt off = .cmd then writeCmd w s else .next s

/-- The command step of whatever OP names (40_control R86). -/
def runOp (s : State) : Result :=
  match s.op with
  | .cmd i => exec i s
  | .illegal => execIllegal s

/-- The block step of 40_control R86: the drain step while `oq` holds a byte and the OUT port can take it (R92), else a
step of the command in progress, else nothing. A step that is not enabled leaves the state as it is. -/
def blockStep (s : State) : Result :=
  match s.oq with
  | b :: rest => if s.outRoom then .next (s.drain b rest) else .next s
  | [] => if s.busy then runOp s else .next s

/-- Whether a rule of the command OP names is enabled, BUSY and `oq` permitting. -/
def opReady (s : State) : Bool :=
  match s.op with
  | .illegal => true
  | .cmd .nop => true
  | .cmd .hdrParse => hdrParseReady s
  | .cmd .hdrEmit => hdrEmitReady s
  | .cmd .encode => encodeReady s
  | .cmd .decode => decodeReady s

/-- Whether a block step is enabled (40_control R86, R92). -/
def blockReady (s : State) : Bool :=
  if s.oq.isEmpty then s.busy && opReady s else s.outRoom

/-! The host. -/

/-- A token joins the tail of `inq` (10_state R30). -/
def State.pushToken (t : Token) (s : State) : State := { s with inq := s.inq ++ [t] }

/-- A register read: what it returned is kept, the block is left as it was (20_memory R49; log entry 10). -/
def State.logRead (off : RegAddr) (s : State) : State := { s with reads := s.reads ++ [(off, s.regRead off)] }

/-- Bits `hi` down to `lo` of `w` (00_scope R10). -/
def fieldOf (w : Word) (hi lo : Nat) : Nat := (w.toNat / 2 ^ lo) % 2 ^ (hi + 1 - lo)

/-- One statement of the host's program, `rest` being what comes after it. A push waits while the IN FIFO is full
(20_memory R40) and a take while the OUT port holds nothing: the statement then stays and nothing changes. `poll` stays
while BUSY is 1 (30_encoding R80); a failed `expect` stops the program (30_encoding R80; log entry 11). DESIGN CHOICE:
taking a byte is a statement of the same program as the others, so none is taken while a `poll` or a `push` waits (log
entry 21). -/
def hostStmt (st : HostStmt) (rest : List HostStmt) (s : State) : Result :=
  match st with
  | .wr off w => regWrite off w { s with host := rest }
  | .rd off => .next { s.logRead off with host := rest }
  | .push beat => if s.inRoom then .next { s.pushToken (Token.ofBeat beat) with host := rest } else .next s
  | .take => if s.outTaken < s.out.length then .next { s with outTaken := s.outTaken + 1, host := rest } else .next s
  | .reset => .next { s.applyReset with host := rest }
  | .poll => .next { s.logRead 0x04#8 with host := if s.busy then s.host else rest }
  | .expect off hi lo v => .next { s with host := if fieldOf (s.regRead off) hi lo = v.toNat then rest else [] }

/-- The host's step: its next statement, or nothing when its program is over. -/
def hostStep (s : State) : Result :=
  match s.host with
  | [] => .next s
  | st :: rest => hostStmt st rest s

/-! The total order of steps. -/

/-- Whose step comes next: the choice that `sched` holds; where it holds none, the block's while a block step is
enabled, else the host's (20_memory R56; log entry 2). -/
def turn (s : State) : Agent :=
  match s.sched with
  | a :: _ => a
  | [] => if blockReady s then .block else .host

/-- The state with the choice just used taken off `sched`. -/
def State.popTurn (s : State) : State := { s with sched := s.sched.tail }

/-- One step of the machine: one host step or one block step (00_scope R13). -/
def stepOnce (s : State) : Result :=
  match turn s with
  | .host => hostStep s.popTurn
  | .block => blockStep s.popTurn

/-! How a command word comes to the block. -/

/-- The state in which the host's very next step writes the command word `w` to CMD of an idle block: a command is
"fetched" by a CMD write while BUSY = 0 (40_control R81; log entry 3). -/
def placeCommand (w : Word) (s : State) : State :=
  { s with busy := false, host := .wr 0x00#8 w :: s.host, sched := .host :: s.sched }

end Sys2Proof.Machine
end

