-- ==== Sys2Proof/Machine/Step.lean ====
section
/-! DEFINITION. The step function of the machine and the placing of its next command. -/

namespace Sys2Proof.Machine

/-- One step: one host step or one block step (00_scope R13). -/
def step (s : State) : Host.Outcome State Fault Refusal := stepOnce s

/-- `s` with the command word whose low `nbits` bits are those of `w` written by the host's very next step (log
entry 3). -/
def State.withFetchWord (s : State) (nbits w : Nat) : State := placeCommand (BitVec.ofNat 32 (w % 2 ^ nbits)) s

end Sys2Proof.Machine
end

