-- ==== Sys2Proof/Machine/Script.lean ====
section
/-! DEFINITION. The pseudo-instructions of the host script syntax (30_encoding R79, R80), as lists of host statements.
Only their abstract form is here; the text notation of R79 is not parsed. -/

namespace Sys2Proof.Machine

/-- `cmd MNEMONIC`: `wr CMD, <the command word>` (30_encoding R80). -/
def cmdStmt (i : Instr) : HostStmt := .wr 0x00#8 (encode i)

/-- `push b0 b1 …`: one beat a byte, `end = 0` (30_encoding R66, R79). -/
def pushBytes (bs : List Byte) : List HostStmt := bs.map (fun b => .push (b.zeroExtend 9))

/-- `push END` (30_encoding R66, R79). -/
def pushEnd : HostStmt := .push 0x100#9

/-- `pushbuf b0 … bn-1`: the bytes, then END (30_encoding R80). -/
def pushBuf (bs : List Byte) : List HostStmt := pushBytes bs ++ [pushEnd]

/-- `expect STATUS.ERR == 0` (30_encoding R80; ERR is bits 7:4 of offset 0x04, 10_state R20). -/
def expectNoError : HostStmt := .expect 0x04#8 7 4 0

/-- The part COMPRESS and DECOMPRESS share: read and check the header, then write it out (30_encoding R80). -/
def passHeader (hdr : List Byte) : List HostStmt :=
  cmdStmt .hdrParse :: pushBytes hdr ++ [.poll, expectNoError, cmdStmt .hdrEmit, .poll]

/-- `COMPRESS H, P` (30_encoding R80; the layouts of 20_memory R50, R51). It takes no byte from the OUT port, so a finite
OUT FIFO can fill for good while it waits (log entry 21). -/
def compress (hdr pixels : List Byte) : List HostStmt :=
  passHeader hdr ++ cmdStmt .encode :: pushBuf pixels ++ [.poll]

/-- `DECOMPRESS H, S` (30_encoding R80; the layout of 20_memory R52). It takes no byte from the OUT port either (log
entry 21). -/
def decompress (hdr stream : List Byte) : List HostStmt :=
  passHeader hdr ++ cmdStmt .decode :: pushBuf stream ++ [.poll]

end Sys2Proof.Machine
end

