-- ==== Sys2Proof/Machine/Reference.lean ====
section
/-! DEFINITION. The reference functions of the codec: ENC_F (42_encoder R116), its segment form SEG (R117), and DEC_F
(43_decoder R130). They say what a whole command computes; the step machine is in Encoder.lean and Decoder.lean. -/

namespace Sys2Proof.Machine

/-- The two bytes `[cnt, prev]` of a pair (42_encoder R116, 30_encoding R76). -/
def pairBytes (cnt : Nat) (v : Byte) : List Byte := [BitVec.ofNat 8 cnt, v]

/-- `go(prev, cnt, xs)` of 42_encoder R116. -/
def encGo (prev : Byte) (cnt : Nat) : List Byte → List Byte
  | [] => pairBytes cnt prev
  | x :: xs => if x = prev ∧ cnt < 255 then encGo prev (cnt + 1) xs else pairBytes cnt prev ++ encGo x 1 xs

/-- ENC_F (42_encoder R116): the output bytes and the error of encoding a whole buffer. -/
def encF : List Byte → List Byte × Err
  | [] => ([], .emptyBuffer)
  | b :: bs => (encGo b 1 bs, .none)

/-- SEG(v, L) (42_encoder R117): the pairs of a run of `L` bytes `v`, `L` at least 1. -/
def seg (v : Byte) (len : Nat) : List Byte :=
  (List.replicate ((len - 1) / 255) (pairBytes 255 v)).flatten ++ pairBytes (len - 255 * ((len - 1) / 255)) v

/-- DEC_F (43_decoder R130): the output bytes and the error of decoding a whole pair stream. -/
def decF : List Byte → List Byte × Err
  | [] => ([], .none)
  | [_] => ([], .truncatedStream)
  | c :: v :: rest => (List.replicate c.toNat v ++ (decF rest).1, (decF rest).2)

end Sys2Proof.Machine
end

