-- ==== Sys2Proof/Safety.lean ====
section
/-! DEFINITION. What holds in every state a run can reach, and the terms in which the claims about whole commands are
made. -/

namespace Sys2Proof.Safety

open Sys2Proof.Machine

/-- A FIFO of depth `d` can hold `level` entries (00_scope R9). -/
def fits (d : Config.FifoDepth) (level : Nat) : Prop :=
  match d with
  | .unbounded => True
  | .finite extra => level ≤ extra + 1

/-- The invariant of the machine. -/
structure MachineInv (s : State) : Prop where
  /-- The header buffer keeps its canonical form. -/
  hbufWf : Memory.wf s.hbuf
  /-- H_IDX stays in 0 to 54 (10_state R15). -/
  hIdxRange : s.hIdx.toNat ≤ 54
  /-- BUSY and DONE are never both 1, and ERR is NONE while BUSY = 1 (10_state R20). -/
  busyNotDone : s.busy = true → s.done = false
  /-- ERR can be non-zero only with DONE = 1 (40_control R90). -/
  errOnlyDone : s.done = false → s.err = .none
  /-- `oq` is empty while no command is in progress (40_control R91, R92). -/
  idleDrained : s.busy = false → s.oq = []
  /-- `oq` holds at most two bytes (10_state R31). -/
  oqTwo : s.oq.length ≤ 2
  /-- Only the encoder places two bytes in `oq` (10_state R31). -/
  oqPair : s.oq.length = 2 → s.op = .cmd .encode
  /-- Only HDR_EMIT, ENCODE and DECODE produce output (40_control R82). -/
  oqOwner : s.oq ≠ [] → s.op = .cmd .hdrEmit ∨ s.op = .cmd .encode ∨ s.op = .cmd .decode
  /-- HDR_VALID is 0 while a header is being read (10_state R22). -/
  parsingInvalid : s.busy = true → s.op = .cmd .hdrParse → s.hdrValid = false
  /-- HDR_VALID = 1 only with the signature "BM" in `hbuf` (10_state R20). -/
  validSigned : s.hdrValid = true → s.hbuf.signatureValid = true
  /-- A run in hand has at least one byte (10_state R16). -/
  runCounted : s.eHave = true → s.eCnt ≠ 0
  /-- The final pair follows at least one byte (42_encoder R118). -/
  finHave : s.eFin = true → s.eHave = true
  /-- OUT_COUNT is at most the number of bytes delivered (10_state R27). -/
  outCounted : s.outCount.toNat ≤ s.out.length
  /-- The host takes only delivered bytes (70 R171). -/
  takenDelivered : s.outTaken ≤ s.out.length
  /-- The IN FIFO holds no more than its depth (00_scope R9). -/
  inFits : fits s.inDepth s.inq.length
  /-- The OUT FIFO holds no more than its depth (00_scope R9). -/
  outFits : fits s.outDepth (s.out.length - s.outTaken)

/-- The tokens of a byte sequence. -/
def tokens (bs : List Byte) : List Token := bs.map .byte

/-- The block can run on by itself: the choice of the next step is the model's default and the OUT port never refuses a
byte, as 00_scope R9 lets a model take it (log entries 2 and 4). The host's program may be anything: while a block step
is enabled it does not move. -/
def Free (s : State) : Prop := s.sched = [] ∧ s.outDepth = .unbounded

/-- `k` steps of the machine lead from `s` to `t`. -/
def RunsTo (s : State) (k : Nat) (t : State) : Prop := Sys2Proof.core.run k s = .next t

/-- The tokens that a command in progress still waits for are in `inq` (40_control R97, condition (a)): for HDR_PARSE
the missing bytes or an END, for ENCODE and DECODE an END, which an ENCODE with E_FIN = 1 has taken. -/
def Supplied (s : State) : Prop :=
  match s.op with
  | .cmd .hdrParse => .endTok ∈ s.inq ∨ 54 ≤ s.hIdx.toNat + s.inq.length
  | .cmd .encode => s.eFin = true ∨ .endTok ∈ s.inq
  | .cmd .decode => .endTok ∈ s.inq
  | .cmd .nop => True
  | .cmd .hdrEmit => True
  | .illegal => True

/-- What an encoder that holds a run of `cnt` bytes `prev` will still write for the tokens `ts`: the pairs they settle,
and the last pair if an END is among them (42_encoder R116, R118). -/
def encOwed (prev : Byte) (cnt : Nat) : List Token → List Byte
  | [] => []
  | .endTok :: _ => pairBytes cnt prev
  | .byte x :: ts =>
    if x = prev ∧ cnt < 255 then encOwed prev (cnt + 1) ts else pairBytes cnt prev ++ encOwed x 1 ts

/-- The whole output the ENCODE in progress is bound to deliver for the tokens pushed so far: what is delivered, what
waits in `oq`, and what the held run and the tokens in `inq` still give. -/
def encPromise (s : State) : List Byte :=
  s.out ++ s.oq ++
    (if s.busy = true ∧ s.op = .cmd .encode ∧ s.eFin = false then
      (if s.eHave then encOwed s.ePrev s.eCnt.toNat s.inq
       else match s.inq with
        | .byte b :: ts => encOwed b 1 ts
        | _ => [])
     else [])

/-- What a decoder between two pairs will still write for the tokens `ts`: the complete pairs before an END
(43_decoder R130). -/
def decOwed : List Token → List Byte
  | .byte c :: .byte v :: ts => List.replicate c.toNat v ++ decOwed ts
  | _ => []

/-- The whole output the DECODE in progress is bound to deliver for the tokens pushed so far. -/
def decPromise (s : State) : List Byte :=
  s.out ++ s.oq ++
    (if s.busy = true ∧ s.op = .cmd .decode then
      (match s.dPhase with
       | .count => decOwed s.inq
       | .value => (match s.inq with
          | .byte v :: ts => List.replicate s.dRem.toNat v ++ decOwed ts
          | _ => [])
       | .emit => List.replicate s.dRem.toNat s.dVal ++ decOwed s.inq)
     else [])

end Sys2Proof.Safety
end

