-- ==== Sys2Proof/Certificates/Slice0/Obligations.lean ====
section
/-! DEFINITION. The statements for the provers, each from the numbered rules of spec/. A title or docstring that says
"the spec's own derived law" is about a rule the spec marks as derived; one that names a log entry rests on a choice of
the model. -/

open Sys2Proof Sys2Proof.Machine Sys2Proof.Safety

/-! Encoding. -/

/-- 30_encoding R65, R69, R70: the five command words and four illegal ones of 95_test_vectors C-3 to C-6. -/
def Obligations.SpecWordsDecode : Prop :=
  decode 0x00000000#32 = .legal .nop ∧ decode 0x00000001#32 = .legal .hdrParse ∧
  decode 0x00000002#32 = .legal .hdrEmit ∧ decode 0x00000003#32 = .legal .encode ∧
  decode 0x00000004#32 = .legal .decode ∧ decode 0x00000013#32 = .illegal .reservedBits ∧
  decode 0x00000005#32 = .illegal .reservedOpcode ∧ decode 0x0000000F#32 = .illegal .reservedOpcode ∧
  decode 0x80000003#32 = .illegal .reservedBits

/-- 30_encoding R65: the decode function on every 32-bit word, by the word's value (bits 31:4 are zero exactly below
16). -/
def Obligations.DecodeEveryWord : Prop :=
  ∀ w : Word,
    (16 ≤ w.toNat → decode w = .illegal .reservedBits) ∧
    (5 ≤ w.toNat → w.toNat ≤ 15 → decode w = .illegal .reservedOpcode) ∧
    (w.toNat = 0 → decode w = .legal .nop) ∧ (w.toNat = 1 → decode w = .legal .hdrParse) ∧
    (w.toNat = 2 → decode w = .legal .hdrEmit) ∧ (w.toNat = 3 → decode w = .legal .encode) ∧
    (w.toNat = 4 → decode w = .legal .decode)

/-- 30_encoding R69: a word decodes to a command exactly when it is that command's full word, so encode and decode
agree in both directions and no other word is legal; and the table's numbering of bits reads the same word. -/
def Obligations.DecodeExactlyEncode : Prop :=
  (∀ (w : Word) (i : Instr), decode w = .legal i ↔ w = encode i) ∧
  (∀ (n : Nat) (i : Instr), decodeTableWord 32 n = some i ↔ n % 2 ^ 32 = (encode i).toNat)

/-! Steps. -/

/-- 00_scope R13, 20_memory R56: a step is one block step or one host step; which of them is the choice `sched` holds,
else the block's while a block step is enabled, else the host's. (That the interleaving stands in `sched`, and this
default, are the model's: log entry 2.) -/
def Obligations.StepTakesTheTurn : Prop :=
  ∀ s : State,
    (turn s = .block → step s = blockStep { s with sched := s.sched.tail }) ∧
    (turn s = .host → s.host = [] → step s = .next { s with sched := s.sched.tail }) ∧
    (∀ st rest, turn s = .host → s.host = st :: rest →
      step s = hostStmt st rest { s with sched := s.sched.tail }) ∧
    (∀ a later, s.sched = a :: later → turn s = a) ∧
    (s.sched = [] → turn s = if blockReady s then .block else .host)

/-- 40_control R88, 20_memory R45: when the host's next statement writes a legal command word to CMD of an idle block
and it is the host's turn, the step is `exec` of that command, after the host has moved past the statement and the
choice of turn has been used up (log entries 1 to 3). That a write at offsets 1 to 3 is one to CMD is log entry 15: R45
and R46 differ there. -/
def Obligations.StepRunsWrittenCommand : Prop :=
  ∀ (s : State) (off : RegAddr) (w : Word) (rest : List HostStmt) (i : Instr),
    turn s = .host → s.host = .wr off w :: rest → off.toNat < 4 → s.busy = false → decode w = .legal i →
    step s = exec i { s with host := rest, sched := s.sched.tail }

/-- 40_control R86: at the block's turn, with `oq` empty and a legal command in progress, the step is `exec` of the
command OP holds, after the choice of turn has been used up (log entries 1 and 2). -/
def Obligations.StepRunsCommandInProgress : Prop :=
  ∀ (s : State) (i : Instr),
    turn s = .block → s.busy = true → s.op = .cmd i → s.oq = [] →
    step s = exec i { s with sched := s.sched.tail }

/-- Log entry 3: placing a table word makes the very next step run the command the decoder reads from it. -/
def Obligations.PlacedWordRunsNext : Prop :=
  ∀ (s : State) (n : Nat) (i : Instr), decodeTableWord 32 n = some i →
    step (s.withFetchWord 32 n) = exec i { s with busy := false }

/-- 40_control R86, R93: a command none of whose rules is enabled (another command in progress, a byte in `oq`, or no
token where one is needed) changes nothing. -/
def Obligations.CommandWaitsUnchanged : Prop :=
  ∀ (s : State) (i : Instr), s.busy = true →
    (s.op ≠ .cmd i ∨ s.oq ≠ [] ∨ (i = .hdrParse ∧ s.hIdx.toNat < 54 ∧ s.inq = []) ∨
      (i = .encode ∧ s.eFin = false ∧ s.inq = []) ∨ (i = .decode ∧ s.dPhase ≠ .emit ∧ s.inq = [])) →
    exec i s = .next s

/-- 40_control R86: the block's turn leaves the state unchanged exactly when no block step is enabled. -/
def Obligations.BlockIdleIffNotReady : Prop :=
  ∀ s : State, blockStep s = .next s ↔ blockReady s = false

/-- 40_control R92: the drain step, its condition and its effect; and no byte is left in `oq` of an idle block. That the
drain is enabled whatever BUSY is, is read from R86 (log entry 20), and when the OUT port can take a byte is log
entry 5. -/
def Obligations.DrainStepDelivers : Prop :=
  (∀ (s : State) (b : Byte) (rest : List Byte), s.oq = b :: rest → s.outRoom = true →
    blockStep s = .next { s with oq := rest, out := s.out ++ [b], outCount := s.outCount + 1 }) ∧
  (∀ s : State, s.oq ≠ [] → s.outRoom = false → blockStep s = .next s) ∧
  (∀ s : State, MachineInv s → s.oq ≠ [] → s.busy = true)

/-- 60_exceptions R141, 20_memory R46: every step answers a next state; the block has no trap and refuses nothing. -/
def Obligations.EveryStepAnswers : Prop :=
  ∀ s : State, ∃ t, step s = .next t

/-! Acceptance. -/

/-- 40_control R87: a CMD write while a command is in progress is dropped and sets OVR, whatever the word. That a write
at offsets 1 to 3 is one to CMD is log entry 15: R45 and R46 differ there. -/
def Obligations.BusyWriteDropped : Prop :=
  ∀ (s : State) (off : RegAddr) (w : Word), s.busy = true → off.toNat < 4 →
    regWrite off w s = .next { s with ovr := true }

/-- 40_control R88, R89: a CMD write to an idle block accepts the command its word decodes to, OP taking bits 3:0 of a
legal word and 0xF for an illegal one, with the command's own initialisation; `inq`, `oq`, `out`, `hbuf` and everything
else are unchanged. -/
def Obligations.AcceptanceInitialises : Prop :=
  ∀ s : State, s.busy = false →
    exec .nop s = .next { s with
      op := .cmd .nop, busy := true, done := false, err := .none, ovr := false,
      inCount := 0, outCount := 0 } ∧
    exec .hdrParse s = .next { s with
      op := .cmd .hdrParse, busy := true, done := false, err := .none, ovr := false,
      inCount := 0, outCount := 0, hdrValid := false, hIdx := 0 } ∧
    exec .hdrEmit s = .next { s with
      op := .cmd .hdrEmit, busy := true, done := false, err := .none, ovr := false,
      inCount := 0, outCount := 0, hIdx := 0 } ∧
    exec .encode s = .next { s with
      op := .cmd .encode, busy := true, done := false, err := .none, ovr := false,
      inCount := 0, outCount := 0, eHave := false, eFin := false } ∧
    exec .decode s = .next { s with
      op := .cmd .decode, busy := true, done := false, err := .none, ovr := false,
      inCount := 0, outCount := 0, dPhase := .count } ∧
    (∀ w : Word, 5 ≤ w.toNat → writeCmd w s = .next { s with
      op := .illegal, busy := true, done := false, err := .none,
      ovr := false, inCount := 0, outCount := 0 }) ∧
    Op.illegal.code = 0xF#4 ∧
    (∀ w i, decode w = .legal i → writeCmd w s = exec i s ∧ (Op.cmd i).code = cmdOp w)

/-- 70 R175, 10_state R30: a token pushed just before a CMD write and one pushed just after it lead to the same
state. -/
def Obligations.PushCommutesWithWrite : Prop :=
  ∀ (s t : State) (k : Token) (w : Word), writeCmd w s = .next t →
    writeCmd w (s.pushToken k) = .next (t.pushToken k)

/-! NOP and ILLEGAL. -/

/-- 40_control R94: the command step of NOP in every state in which it is enabled, one with OVR = 1 among them; and from
an idle block, NOP is accepted and completes in that one step, whatever `inq` holds, and changes nothing but STATUS, the
counters and OP. -/
def Obligations.NopCompletes : Prop :=
  (∀ s : State, s.busy = true → s.op = .cmd .nop → s.oq = [] →
    exec .nop s = .next { s with busy := false, done := true, err := .none }) ∧
  ∀ s : State, s.busy = false → s.oq = [] →
    ∃ a t, exec .nop s = .next a ∧ exec .nop a = .next t ∧
      t = { s with
        op := .cmd .nop, busy := false, done := true, err := .none, ovr := false, inCount := 0,
        outCount := 0 } ∧
      t.statusWord = (if s.hdrValid then 0x00000006#32 else 0x00000002#32)

/-- 40_control R95: the command step of ILLEGAL in every state in which it is enabled, one with OVR = 1 among them; and
any illegal word is accepted by an idle block and completes with IllegalCommand in that one step, consuming no token and
changing nothing but STATUS, the counters and OP; while BUSY = 1 it is not accepted at all. -/
def Obligations.IllegalWordFails : Prop :=
  (∀ s : State, s.busy = true → s.op.code = 0xF#4 → s.oq = [] →
    blockStep s = .next { s with busy := false, done := true, err := .illegalCommand }) ∧
  ∀ (s : State) (w : Word), 5 ≤ w.toNat →
    (s.busy = false → s.oq = [] →
      ∃ a t, writeCmd w s = .next a ∧ a.op.code = 0xF#4 ∧ blockStep a = .next t ∧
        t = { s with
          op := .illegal, busy := false, done := true, err := .illegalCommand, ovr := false, inCount := 0,
          outCount := 0 } ∧
        t.statusWord = (if s.hdrValid then 0x00000066#32 else 0x00000062#32)) ∧
    (s.busy = true → writeCmd w s = .next { s with ovr := true })

/-! The header unit. -/

/-- 41_header R100: the acceptance and the three rules of HDR_PARSE, which waits while a byte is in `oq` and, below 54
bytes, while `inq` is empty. HP_BYTE stores the byte at `hbuf[H_IDX]` and changes no other header
byte; HP_END fails with TruncatedHeader; HP_CHECK sets HDR_VALID or fails with NotABitmap. Each changes nothing else. -/
def Obligations.HdrParseStepRules : Prop :=
  (∀ s : State, s.busy = false →
    exec .hdrParse s = .next { s.accept (.cmd .hdrParse) with hdrValid := false, hIdx := 0 }) ∧
  (∀ s : State, s.busy = true → (s.oq ≠ [] ∨ s.hIdx.toNat < 54 ∧ s.inq = []) → exec .hdrParse s = .next s) ∧
  ∀ s : State, s.busy = true → s.op = .cmd .hdrParse → s.oq = [] →
    (∀ b rest, Memory.wf s.hbuf → s.hIdx.toNat < 54 → s.inq = .byte b :: rest →
      ∃ t, exec .hdrParse s = .next t ∧
        t = { s with inq := rest, inCount := s.inCount + 1, hIdx := s.hIdx + 1, hbuf := t.hbuf } ∧
        t.hIdx.toNat = s.hIdx.toNat + 1 ∧
        ∀ a, t.hbuf.read a = if a = s.hIdx.toNat then b else s.hbuf.read a) ∧
    (∀ rest, s.hIdx.toNat < 54 → s.inq = .endTok :: rest →
      exec .hdrParse s = .next { s with inq := rest, busy := false, done := true, err := .truncatedHeader }) ∧
    (s.hIdx.toNat = 54 → s.hbuf.read 0 = 0x42#8 → s.hbuf.read 1 = 0x4D#8 →
      exec .hdrParse s = .next { s with hdrValid := true, busy := false, done := true, err := .none }) ∧
    (s.hIdx.toNat = 54 → ¬(s.hbuf.read 0 = 0x42#8 ∧ s.hbuf.read 1 = 0x4D#8) →
      exec .hdrParse s = .next { s with busy := false, done := true, err := .notABitmap })

/-- 41_header R108: the acceptance and the three rules of HDR_EMIT, which read `hbuf`, consume no token and change
nothing else; a pushed byte is delivered before the next rule runs. -/
def Obligations.HdrEmitStepRules : Prop :=
  (∀ s : State, s.busy = false → exec .hdrEmit s = .next { s.accept (.cmd .hdrEmit) with hIdx := 0 }) ∧
  (∀ s : State, s.busy = true → s.oq ≠ [] → exec .hdrEmit s = .next s) ∧
  ∀ s : State, s.busy = true → s.op = .cmd .hdrEmit → s.oq = [] →
    (s.hdrValid = false →
      exec .hdrEmit s = .next { s with busy := false, done := true, err := .noHeader }) ∧
    (s.hdrValid = true → s.hIdx.toNat < 54 →
      ∃ t, exec .hdrEmit s = .next t ∧ t = { s with oq := [s.hbuf.read s.hIdx.toNat], hIdx := s.hIdx + 1 } ∧
        t.hIdx.toNat = s.hIdx.toNat + 1) ∧
    (s.hdrValid = true → s.hIdx.toNat = 54 →
      exec .hdrEmit s = .next { s with busy := false, done := true, err := .none })

/-- 41_header R100 to R105 on whole commands: an idle block whose `inq` starts with 54 bytes `hdr` takes exactly those
54 (55 block steps), holds them in `hbuf`, writes nothing to the OUT port, and completes with HDR_VALID and NONE exactly
when they start with 0x42 0x4D, else with NotABitmap. -/
def Obligations.HdrParseWholeHeader : Prop :=
  ∀ (s : State) (hdr : List Byte) (rest : List Token),
    MachineInv s → Free s → s.busy = false → hdr.length = 54 → s.inq = tokens hdr ++ rest →
    ∃ a t, exec .hdrParse s = .next a ∧ RunsTo a 55 t ∧
      t = { s with
        op := .cmd .hdrParse, busy := false, done := true, ovr := false, outCount := 0, hIdx := 54, inq := rest,
        inCount := 54, hbuf := t.hbuf, hdrValid := t.hdrValid, err := t.err } ∧
      (∀ k < 54, t.hbuf.read k = hdr.getD k 0) ∧
      (t.hdrValid = true ↔ hdr.take 2 = [0x42#8, 0x4D#8]) ∧
      t.err = (if hdr.take 2 = [0x42#8, 0x4D#8] then .none else .notABitmap)

/-- 41_header R104, 60_exceptions R149: an END after `k < 54` header bytes ends HDR_PARSE with TruncatedHeader, IN_COUNT
`k`, HDR_VALID 0, the first `k` bytes of `hbuf` new and the others as they were, the END taken and nothing after it. -/
def Obligations.HdrParseTruncated : Prop :=
  ∀ (s : State) (hdr : List Byte) (rest : List Token),
    MachineInv s → Free s → s.busy = false → hdr.length < 54 → s.inq = tokens hdr ++ .endTok :: rest →
    ∃ a t, exec .hdrParse s = .next a ∧ RunsTo a (hdr.length + 1) t ∧
      t = { s with
        op := .cmd .hdrParse, busy := false, done := true, err := .truncatedHeader, ovr := false, outCount := 0,
        hIdx := BitVec.ofNat 6 hdr.length, inq := rest, inCount := BitVec.ofNat 32 hdr.length, hdrValid := false,
        hbuf := t.hbuf } ∧
      ∀ k, t.hbuf.read k = if k < hdr.length then hdr.getD k 0 else s.hbuf.read k

/-- 41_header R103, R109: HDR_PARSE never gives the OUT port a byte, whatever its outcome, and HDR_EMIT gives none while
HDR_VALID = 0. -/
def Obligations.HeaderOutputGated : Prop :=
  ∀ s t : State,
    (exec .hdrParse s = .next t → t.oq = s.oq ∧ t.out = s.out) ∧
    (exec .hdrEmit s = .next t → s.hdrValid = false → t.oq = s.oq ∧ t.out = s.out)

/-- 41_header R108, R110 on whole commands: with HDR_VALID = 1 an idle block emits exactly the 54 bytes of `hbuf`, in
order, in 109 block steps, with OUT_COUNT 54, and takes no token. -/
def Obligations.HdrEmitWholeHeader : Prop :=
  ∀ s : State, MachineInv s → Free s → s.busy = false → s.hdrValid = true →
    ∃ a t, exec .hdrEmit s = .next a ∧ RunsTo a 109 t ∧
      t = { s with
        op := .cmd .hdrEmit, busy := false, done := true, err := .none, ovr := false, inCount := 0,
        outCount := 54, hIdx := 54, out := s.out ++ (List.range 54).map s.hbuf.read }

/-- 60_exceptions R151, 41_header R109: with HDR_VALID = 0, HDR_EMIT fails with NoHeader at its first command step, emits
nothing and leaves OUT_COUNT 0. -/
def Obligations.HdrEmitNeedsHeader : Prop :=
  ∀ s : State, s.busy = false → s.oq = [] → s.hdrValid = false →
    ∃ a t, exec .hdrEmit s = .next a ∧ exec .hdrEmit a = .next t ∧
      t = { s with
        op := .cmd .hdrEmit, busy := false, done := true, err := .noHeader, ovr := false, inCount := 0,
        outCount := 0, hIdx := 0 }

/-- 41_header R111, the spec's own derived law: for every 54-byte header that starts with "BM", HDR_PARSE then HDR_EMIT
append exactly that header to `out` and end with STATUS 0x00000006. -/
def Obligations.HeaderPassthrough : Prop :=
  ∀ (s : State) (hdr : List Byte) (rest : List Token),
    MachineInv s → Free s → s.busy = false → hdr.length = 54 → hdr.take 2 = [0x42#8, 0x4D#8] → s.inq = tokens hdr ++ rest →
    ∃ a p b t, exec .hdrParse s = .next a ∧ RunsTo a 55 p ∧ exec .hdrEmit p = .next b ∧ RunsTo b 109 t ∧
      t.out = s.out ++ hdr ∧ t.statusWord = 0x00000006#32 ∧ t.inq = rest

/-- 10_state R22, 41_header R106: HDR_VALID becomes 1 only by HP_CHECK on a valid signature, and goes back to 0 only by
a reset or by the acceptance of HDR_PARSE. -/
def Obligations.HdrValidLife : Prop :=
  ∀ s t : State, step s = .next t →
    (s.hdrValid = false → t.hdrValid = true →
      turn s = .block ∧ s.busy = true ∧ s.op = .cmd .hdrParse ∧ s.oq = [] ∧ s.hIdx.toNat = 54 ∧
        s.hbuf.signatureValid = true ∧ t.busy = false ∧ t.done = true ∧ t.err = .none) ∧
    (s.hdrValid = true → t.hdrValid = false →
      turn s = .host ∧ ((∃ rest, s.host = .reset :: rest) ∨
        ∃ off w rest, s.host = .wr off w :: rest ∧ off.toNat < 4 ∧ s.busy = false ∧ w = 0x00000001#32))

/-! The encoder. -/

/-- 42_encoder R118: the acceptance and the six rules of ENCODE, which waits while a byte is in `oq` and, before END,
while `inq` is empty; each rule changes nothing else. (E_FIN = 1 implies E_HAVE = 1 by the invariant `InvariantKept`;
the other states, log entry 8, are no ENCODE's.) -/
def Obligations.EncodeStepRules : Prop :=
  (∀ s : State, s.busy = false →
    exec .encode s = .next { s.accept (.cmd .encode) with eHave := false, eFin := false }) ∧
  (∀ s : State, s.busy = true → (s.oq ≠ [] ∨ s.eFin = false ∧ s.inq = []) → exec .encode s = .next s) ∧
  ∀ s : State, s.busy = true → s.op = .cmd .encode → s.oq = [] → (s.eFin = true → s.eHave = true) →
    (∀ b rest, s.eHave = false → s.inq = .byte b :: rest →
      exec .encode s = .next { s with inq := rest, inCount := s.inCount + 1, ePrev := b, eCnt := 1, eHave := true }) ∧
    (∀ rest, s.eHave = false → s.inq = .endTok :: rest →
      exec .encode s = .next { s with inq := rest, busy := false, done := true, err := .emptyBuffer }) ∧
    (∀ rest, s.eHave = true → s.eFin = false → s.inq = .byte s.ePrev :: rest → s.eCnt.toNat < 255 →
      exec .encode s = .next { s with inq := rest, inCount := s.inCount + 1, eCnt := s.eCnt + 1 }) ∧
    (∀ b rest, s.eHave = true → s.eFin = false → s.inq = .byte b :: rest → (b ≠ s.ePrev ∨ s.eCnt = 255#8) →
      exec .encode s = .next { s with
        inq := rest, inCount := s.inCount + 1, oq := [s.eCnt, s.ePrev], ePrev := b,
        eCnt := 1 }) ∧
    (∀ rest, s.eHave = true → s.eFin = false → s.inq = .endTok :: rest →
      exec .encode s = .next { s with inq := rest, oq := [s.eCnt, s.ePrev], eFin := true }) ∧
    (s.eFin = true → exec .encode s = .next { s with busy := false, done := true, err := .none })

/-- 42_encoder R119, the spec's own derived rule: from a state that meets the invariant, an ENCODE step pushes nothing
or one pair whose count is 1 to 255, and the run counter never wraps. -/
def Obligations.EncoderCountsInRange : Prop :=
  ∀ s t : State, MachineInv s → s.busy = true → exec .encode s = .next t →
    (t.oq = s.oq ∨ ∃ c v, t.oq = s.oq ++ [c, v] ∧ 1 ≤ c.toNat ∧ v = s.ePrev) ∧
    (t.eCnt = s.eCnt ∨ t.eCnt = 1 ∨ (t.eCnt.toNat = s.eCnt.toNat + 1 ∧ t.ePrev = s.ePrev))

/-- 42_encoder R127 and R128, the spec's own derived law: the step machine agrees with the reference function. An idle
block whose `inq` starts with the tokens of a buffer and an END runs ENCODE to completion, appends ENC_F of the buffer
to `out`, completes with its error, counts bytes in and out, takes nothing after the END, and changes nothing but what
ENCODE owns. -/
def Obligations.EncodeAgreesWithReference : Prop :=
  ∀ (s : State) (buf : List Byte) (rest : List Token),
    Free s → s.busy = false → s.oq = [] → s.inq = tokens buf ++ .endTok :: rest →
    ∃ a k t, exec .encode s = .next a ∧ RunsTo a k t ∧
      t = { s with
        op := .cmd .encode, busy := false, done := true, err := (encF buf).2, ovr := false, inq := rest,
        inCount := BitVec.ofNat 32 buf.length, outCount := BitVec.ofNat 32 (encF buf).1.length,
        out := s.out ++ (encF buf).1, ePrev := t.ePrev, eCnt := t.eCnt, eHave := t.eHave, eFin := t.eFin }

/-- 42_encoder R127 with 20_memory R56, the spec's own derived law for every interleaving: while an ENCODE is in progress
no step but a reset changes what it is bound to deliver for the tokens pushed so far; a block step leaves it as it is and
a host step can only add to it. -/
def Obligations.EncodePromiseKept : Prop :=
  ∀ s t : State, MachineInv s → s.busy = true → s.op = .cmd .encode → step s = .next t →
    (turn s = .host → ∀ rest, s.host ≠ .reset :: rest) →
    encPromise s <+: encPromise t ∧ (turn s = .block → encPromise t = encPromise s)

/-- 42_encoder R117, the spec's own derived law: the encoding of a buffer given by its maximal runs is the segments of
its runs, one after the other. -/
def Obligations.EncodeSegmentForm : Prop :=
  ∀ runs : List (Byte × Nat), runs ≠ [] → (∀ r ∈ runs, 1 ≤ r.2) → runs.IsChain (fun a b => a.1 ≠ b.1) →
    encF (runs.flatMap (fun r => List.replicate r.2 r.1)) = (runs.flatMap (fun r => seg r.1 r.2), .none)

/-- 42_encoder R125, the spec's own derived rule: the output of encoding `N ≥ 1` bytes has an even number of bytes, at
most `2 * N` and at least twice `N / 255` rounded up; and, the buffer being its maximal runs of `Li` bytes, it has exactly
twice the sum of `Li / 255` rounded up. -/
def Obligations.EncodeOutputSize : Prop :=
  ∀ buf : List Byte, buf ≠ [] →
    (encF buf).1.length % 2 = 0 ∧ (encF buf).1.length ≤ 2 * buf.length ∧
      2 * ((buf.length + 254) / 255) ≤ (encF buf).1.length ∧
      ∀ runs : List (Byte × Nat), (∀ r ∈ runs, 1 ≤ r.2) → runs.IsChain (fun a b => a.1 ≠ b.1) →
        buf = runs.flatMap (fun r => List.replicate r.2 r.1) →
        (encF buf).1.length = 2 * (runs.map (fun r => (r.2 + 254) / 255)).sum

/-! The decoder. -/

/-- 43_decoder R131: the acceptance and the six rules of DECODE, which waits while a byte is in `oq` and, outside EMIT,
while `inq` is empty; each rule changes nothing else. -/
def Obligations.DecodeStepRules : Prop :=
  (∀ s : State, s.busy = false → exec .decode s = .next { s.accept (.cmd .decode) with dPhase := .count }) ∧
  (∀ s : State, s.busy = true → (s.oq ≠ [] ∨ s.dPhase ≠ .emit ∧ s.inq = []) → exec .decode s = .next s) ∧
  ∀ s : State, s.busy = true → s.op = .cmd .decode → s.oq = [] →
    (∀ c rest, s.dPhase = .count → s.inq = .byte c :: rest →
      exec .decode s = .next { s with inq := rest, inCount := s.inCount + 1, dRem := c, dPhase := .value }) ∧
    (∀ rest, s.dPhase = .count → s.inq = .endTok :: rest →
      exec .decode s = .next { s with inq := rest, busy := false, done := true, err := .none }) ∧
    (∀ v rest, s.dPhase = .value → s.inq = .byte v :: rest →
      exec .decode s = .next { s with inq := rest, inCount := s.inCount + 1, dVal := v, dPhase := .emit }) ∧
    (∀ rest, s.dPhase = .value → s.inq = .endTok :: rest →
      exec .decode s = .next { s with inq := rest, busy := false, done := true, err := .truncatedStream }) ∧
    (s.dPhase = .emit → s.dRem ≠ 0 →
      exec .decode s = .next { s with oq := [s.dVal], dRem := s.dRem - 1 }) ∧
    (s.dPhase = .emit → s.dRem = 0 → exec .decode s = .next { s with dPhase := .count })

/-- 43_decoder R139 and R140, the spec's own derived law: the step machine agrees with the reference function. An idle
block whose `inq` starts with the tokens of a pair stream and an END runs DECODE to completion, appends DEC_F of the
stream to `out`, completes with its error, counts bytes in and out, takes nothing after the END, and changes nothing but
what DECODE owns. -/
def Obligations.DecodeAgreesWithReference : Prop :=
  ∀ (s : State) (stream : List Byte) (rest : List Token),
    Free s → s.busy = false → s.oq = [] → s.inq = tokens stream ++ .endTok :: rest →
    ∃ a k t, exec .decode s = .next a ∧ RunsTo a k t ∧
      t = { s with
        op := .cmd .decode, busy := false, done := true, err := (decF stream).2, ovr := false, inq := rest,
        inCount := BitVec.ofNat 32 stream.length, outCount := BitVec.ofNat 32 (decF stream).1.length,
        out := s.out ++ (decF stream).1, dPhase := t.dPhase, dRem := t.dRem, dVal := t.dVal }

/-- 43_decoder R139 with 20_memory R56, the spec's own derived law for every interleaving: while a DECODE is in progress
no step but a reset changes what it is bound to deliver for the tokens pushed so far; a block step leaves it as it is and
a host step can only add to it. -/
def Obligations.DecodePromiseKept : Prop :=
  ∀ s t : State, s.busy = true → s.op = .cmd .decode → step s = .next t →
    (turn s = .host → ∀ rest, s.host ≠ .reset :: rest) →
    decPromise s <+: decPromise t ∧ (turn s = .block → decPromise t = decPromise s)

/-- 43_decoder R135 and R137, the spec's own derived rules: every sequence of pairs decodes, whatever its counts, to each
value repeated its count of times; a lone count byte after them gives TruncatedStream and no byte of its own. -/
def Obligations.DecodeEveryPairSequence : Prop :=
  ∀ pairs : List (Byte × Byte),
    decF (pairs.flatMap (fun p => [p.1, p.2])) = (pairs.flatMap (fun p => List.replicate p.1.toNat p.2), .none) ∧
    ∀ c : Byte, decF (pairs.flatMap (fun p => [p.1, p.2]) ++ [c]) =
      (pairs.flatMap (fun p => List.replicate p.1.toNat p.2), .truncatedStream)

/-- 43_decoder R138, the spec's own derived round-trip law: decoding the encoding of a non-empty buffer gives the buffer
back without error. -/
def Obligations.DecodeInvertsEncode : Prop :=
  ∀ buf : List Byte, buf ≠ [] → (encF buf).2 = .none ∧ decF (encF buf).1 = (buf, .none)

/-! The whole machine. -/

/-- The invariant of the machine (10_state R15, R16, R20, R27, R31; 40_control R90 to R92; 42_encoder R118) is kept by
every step, the host's and the block's. (Its clauses on the FIFOs' fill rest on log entries 4 and 5.) -/
def Obligations.InvariantKept : Prop :=
  ∀ s t : State, MachineInv s → step s = .next t → MachineInv t

/-- The invariant holds right after reset (10_state R35). -/
def Obligations.ResetMeetsInvariant : Prop := MachineInv State.reset

/-- 40_control R97, 70 R179, the spec's own derived rule: from every state that meets the invariant, a command in
progress whose tokens are in `inq` completes after finitely many block steps, when the OUT port takes every byte. -/
def Obligations.CommandInProgressCompletes : Prop :=
  ∀ s : State, MachineInv s → Free s → s.busy = true → Supplied s →
    ∃ k t, RunsTo s k t ∧ t.busy = false ∧ t.done = true ∧ t.oq = [] ∧ t.op = s.op

/-- 40_control R98: a block step writes only what the command in progress owns. `hbuf` and HDR_VALID change only under
HDR_PARSE, the E registers only under ENCODE, the D registers only under DECODE, H_IDX only under the two header
commands; OP, OVR, the FIFO depths and the host's side never change. -/
def Obligations.BlockStepFrame : Prop :=
  ∀ s t : State, blockStep s = .next t →
    (s.op ≠ .cmd .hdrParse → t.hbuf = s.hbuf ∧ t.hdrValid = s.hdrValid) ∧
    (s.op ≠ .cmd .hdrParse → s.op ≠ .cmd .hdrEmit → t.hIdx = s.hIdx) ∧
    (s.op ≠ .cmd .encode → t.ePrev = s.ePrev ∧ t.eCnt = s.eCnt ∧ t.eHave = s.eHave ∧ t.eFin = s.eFin) ∧
    (s.op ≠ .cmd .decode → t.dPhase = s.dPhase ∧ t.dRem = s.dRem ∧ t.dVal = s.dVal) ∧
    t.op = s.op ∧ t.ovr = s.ovr ∧ t.inDepth = s.inDepth ∧ t.outDepth = s.outDepth ∧ t.outTaken = s.outTaken ∧
    t.host = s.host ∧ t.sched = s.sched ∧ t.reads = s.reads

/-- 42_encoder R126, 43_decoder R136: NOP, ENCODE and DECODE neither read nor write the header: run from two states that
differ only in `hbuf` and HDR_VALID, they do the same and keep both. -/
def Obligations.CodecIgnoresHeader : Prop :=
  ∀ (s : State) (m : Memory) (v : Bool) (i : Instr), i = .nop ∨ i = .encode ∨ i = .decode →
    ∃ t, exec i s = .next t ∧ t.hbuf = s.hbuf ∧ t.hdrValid = s.hdrValid ∧
      exec i { s with hbuf := m, hdrValid := v } = .next { t with hbuf := m, hdrValid := v }

/-- 00_scope R9, 20_memory R40: the FIFO depths change only when a block step waits, never what it does: with any depths
a block step either waits for the OUT port or does what it does with unbounded FIFOs. (The depths as fields of State are
log entry 4, the OUT port's fill is log entry 5.) -/
def Obligations.DepthsOnlyDelay : Prop :=
  ∀ (s t : State) (d e : Config.FifoDepth),
    blockStep { s with inDepth := .unbounded, outDepth := .unbounded } = .next t →
    let s' := { s with inDepth := d, outDepth := e }
    (s'.oq ≠ [] ∧ s'.outRoom = false ∧ blockStep s' = .next s') ∨
      blockStep s' = .next { t with inDepth := d, outDepth := e }

/-- 10_state R32: the OUT port's record only grows, by the head byte of `oq` at a time; no step, a reset among them,
retracts, reorders or duplicates a byte. -/
def Obligations.OutOnlyGrows : Prop :=
  ∀ s t : State, step s = .next t →
    t.out = s.out ∨ ∃ b rest, turn s = .block ∧ s.oq = b :: rest ∧ t.oq = rest ∧ t.out = s.out ++ [b] ∧
      t.outCount = s.outCount + 1

/-- 10_state R26, R30, 40_control R84: a block step takes at most one token, the head of `inq`; IN_COUNT goes up by one
exactly when that is a `Byte`; NOP, HDR_EMIT and ILLEGAL take none (R82). -/
def Obligations.TokensTakenInOrder : Prop :=
  ∀ s t : State, blockStep s = .next t →
    ((t.inq = s.inq ∧ t.inCount = s.inCount) ∨
      (∃ b, s.inq = .byte b :: t.inq ∧ t.inCount = s.inCount + 1) ∨
      (s.inq = .endTok :: t.inq ∧ t.inCount = s.inCount)) ∧
    (s.op = .cmd .nop ∨ s.op = .cmd .hdrEmit ∨ s.op = .illegal → t.inq = s.inq)

/-- 60_exceptions R142 to R144, 40_control R90: a command step that completes, with or without an error, delivers and
queues nothing, keeps OUT_COUNT and every datapath register, `hbuf` and OVR, and writes HDR_VALID only when HDR_PARSE
succeeds. -/
def Obligations.CompletionIsPrecise : Prop :=
  ∀ (s t : State) (i : Instr), s.busy = true → exec i s = .next t → t.busy = false →
    t.done = true ∧ s.op = .cmd i ∧ s.oq = [] ∧
    t = { s with busy := false, done := true, err := t.err, inq := t.inq, hdrValid := t.hdrValid } ∧
    (t.inq = s.inq ∨ s.inq = .endTok :: t.inq) ∧
    (t.hdrValid = s.hdrValid ∨ (i = .hdrParse ∧ t.err = .none))

/-! Reset. -/

/-- 10_state R35, 70_reset_and_hazards R166, R167: a host reset puts every element of the block at its reset value,
whatever it was doing, and keeps the bytes delivered; every register then reads 0. -/
def Obligations.ResetSetsEveryElement : Prop :=
  ∀ (s : State) (rest : List HostStmt),
    ∃ t, hostStmt .reset rest s = .next t ∧
      t.busy = false ∧ t.done = false ∧ t.hdrValid = false ∧ t.ovr = false ∧ t.err = .none ∧ t.inCount = 0 ∧
      t.outCount = 0 ∧ t.op.code = 0x0#4 ∧ t.hIdx = 0 ∧ t.ePrev = 0 ∧ t.eCnt = 0 ∧ t.dRem = 0 ∧ t.dVal = 0 ∧
      t.eHave = false ∧ t.eFin = false ∧ t.dPhase = .count ∧ (∀ a, t.hbuf.read a = 0) ∧ t.inq = [] ∧ t.oq = [] ∧
      t.out = s.out ∧ ∀ off, t.regRead off = 0

/-! Registers and ports. -/

/-- 10_state R20, 60_exceptions R145: the STATUS word at offset 0x04, bit by bit, with the code of each error kind; a
write to it is ignored; BUSY and DONE are never both 1 and ERR is 0 while BUSY = 1 in states that meet the invariant. -/
def Obligations.StatusLayout : Prop :=
  ∀ s : State,
    ((s.regRead 0x04#8).getLsbD 0 = s.busy ∧ (s.regRead 0x04#8).getLsbD 1 = s.done ∧
      (s.regRead 0x04#8).getLsbD 2 = s.hdrValid ∧ (s.regRead 0x04#8).getLsbD 3 = s.ovr ∧
      (s.regRead 0x04#8).extractLsb' 4 4 = s.err.code ∧ (s.regRead 0x04#8).extractLsb' 8 24 = 0#24) ∧
    (s.err.code = match s.err with
      | .none => 0x0#4
      | .notABitmap => 0x1#4
      | .truncatedStream => 0x2#4
      | .emptyBuffer => 0x3#4
      | .truncatedHeader => 0x4#4
      | .noHeader => 0x5#4
      | .illegalCommand => 0x6#4) ∧
    (∀ w, regWrite 0x04#8 w s = .next s) ∧
    (MachineInv s → ¬(s.busy = true ∧ s.done = true) ∧ (s.busy = true → s.err.code = 0#4))

/-- 20_memory R45, R46 and 10_state R25 to R27: bits 1:0 of an offset are ignored; CMD and every unmapped offset read 0;
IN_COUNT and OUT_COUNT stand at 0x08 and 0x0C; a write that does not reach CMD is ignored (offsets 1 to 3: log
entry 15). -/
def Obligations.RegisterAccess : Prop :=
  ∀ (s : State) (off : RegAddr),
    s.regRead off = s.regRead (off &&& 0xFC#8) ∧
    (off.toNat < 4 → s.regRead off = 0) ∧
    (0x4C ≤ off.toNat → off.toNat ≤ 0x7F → s.regRead off = 0) ∧ (0xB8 ≤ off.toNat → s.regRead off = 0) ∧
    s.regRead 0x08#8 = s.inCount ∧ s.regRead 0x0C#8 = s.outCount ∧
    (∀ w, regWrite off w s = regWrite (off &&& 0xFC#8) w s) ∧ (∀ w, 4 ≤ off.toNat → regWrite off w s = .next s)

/-- 20_memory R44, R47, 30_encoding R73, R74: the fifteen field views as arithmetic on the header bytes, whatever
HDR_VALID is. The byte order is the spec's own choice from general knowledge (D8, log entry 7). -/
def Obligations.FieldViewsLittleEndian : Prop :=
  ∀ s : State,
    let b := fun a => (s.hbuf.read a).toNat
    let word := fun a => b a + 256 * b (a + 1) + 65536 * b (a + 2) + 16777216 * b (a + 3)
    let signed := fun a => if b (a + 1) < 128 then ((b a + 256 * b (a + 1) : Nat) : Int)
      else ((b a + 256 * b (a + 1) : Nat) : Int) - 65536
    (s.regRead 0x10#8).toNat = b 0 + 256 * b 1 ∧ (s.regRead 0x14#8).toNat = word 2 ∧
    (s.regRead 0x18#8).toNat = word 6 ∧ (s.regRead 0x1C#8).toNat = word 10 ∧ (s.regRead 0x20#8).toNat = word 14 ∧
    (s.regRead 0x24#8).toNat = word 18 ∧ (s.regRead 0x28#8).toNat = word 22 ∧
    (s.regRead 0x2C#8).toInt = signed 26 ∧ (s.regRead 0x30#8).toInt = signed 28 ∧
    (s.regRead 0x34#8).toNat = word 30 ∧ (s.regRead 0x38#8).toNat = word 34 ∧ (s.regRead 0x3C#8).toNat = word 38 ∧
    (s.regRead 0x40#8).toNat = word 42 ∧ (s.regRead 0x44#8).toNat = word 46 ∧ (s.regRead 0x48#8).toNat = word 50

/-- 20_memory R48: HDR_RAW[k] shows header bytes 4k to 4k+3, the lowest in the low byte, and HDR_RAW[13] the last two
below zeros; together all 54 bytes. -/
def Obligations.RawWordsShowHeader : Prop :=
  ∀ (s : State) (k : Nat),
    (k ≤ 12 → ∀ j < 4, (s.regRead (BitVec.ofNat 8 (0x80 + 4 * k))).extractLsb' (8 * j) 8 = s.hbuf.read (4 * k + j)) ∧
    (s.regRead 0xB4#8).extractLsb' 0 8 = s.hbuf.read 52 ∧ (s.regRead 0xB4#8).extractLsb' 8 8 = s.hbuf.read 53 ∧
    (s.regRead 0xB4#8).extractLsb' 16 16 = 0#16

/-- 20_memory R49: a host register read returns the register's value and leaves the block, and so every later read, as
it was (that the value is kept in `reads` is the model's, log entry 10). -/
def Obligations.ReadsHaveNoSideEffect : Prop :=
  ∀ (s : State) (off : RegAddr) (rest : List HostStmt),
    ∃ t, hostStmt (.rd off) rest s = .next t ∧
      t = { s with host := rest, reads := s.reads ++ [(off, s.regRead off)] } ∧ ∀ other, t.regRead other = s.regRead other

/-- 30_encoding R66, 20_memory R38: a pushed beat joins the tail of `inq` as END when its bit 8 is 1, whatever its
data, and as its data byte when that bit is 0. While the IN FIFO is full the push waits (20_memory R40) and nothing
changes: that the host does nothing else meanwhile is log entry 19. -/
def Obligations.PushedBeatJoinsQueue : Prop :=
  ∀ (s : State) (beat : Beat) (rest : List HostStmt),
    (s.inRoom = true → beat.getLsbD 8 = true →
      hostStmt (.push beat) rest s = .next { s with inq := s.inq ++ [.endTok], host := rest }) ∧
    (s.inRoom = true → beat.getLsbD 8 = false →
      hostStmt (.push beat) rest s = .next { s with inq := s.inq ++ [.byte (beat.extractLsb' 0 8)], host := rest }) ∧
    (s.inRoom = false → hostStmt (.push beat) rest s = .next s)

/-- 30_encoding R80, 70_reset_and_hazards R171, R176: the host's other statements. `wait` goes on only once it has read
BUSY = 0; a taken byte makes room in the OUT port, and a take waits while there is none; an `expect` that fails stops
the host's program (log entries 5, 10 and 11). That a take is a statement of the same program, so that none happens during
a `wait`, is log entry 21. None changes the block. -/
def Obligations.HostWaitsTakesAndChecks : Prop :=
  ∀ (s : State) (rest : List HostStmt),
    hostStmt .poll rest s = .next { s with
      reads := s.reads ++ [(0x04#8, s.statusWord)], host := if s.busy then s.host else rest } ∧
    (s.outTaken < s.out.length → hostStmt .take rest s = .next { s with outTaken := s.outTaken + 1, host := rest }) ∧
    (s.out.length ≤ s.outTaken → hostStmt .take rest s = .next s) ∧
    ∀ off hi lo v, lo ≤ hi → hi ≤ 31 →
      ((s.regRead off).toNat / 2 ^ lo % 2 ^ (hi + 1 - lo) = v.toNat →
        hostStmt (.expect off hi lo v) rest s = .next { s with host := rest }) ∧
      ((s.regRead off).toNat / 2 ^ lo % 2 ^ (hi + 1 - lo) ≠ v.toNat →
        hostStmt (.expect off hi lo v) rest s = .next { s with host := [] })

/-! Errors. -/

/-- 60_exceptions R145: the table of error codes. A block step that completes a command leaves in ERR the code of one of
the seven kinds, and each kind comes from its own command and its own cause, NONE from a command that is legal. -/
def Obligations.ErrorTable : Prop :=
  ∀ s t : State, blockStep s = .next t → s.busy = true → t.busy = false →
    let code := (t.regRead 0x04#8).extractLsb' 4 4
    match t.err with
    | .none => code = 0x0#4 ∧ s.op ≠ .illegal
    | .notABitmap => code = 0x1#4 ∧ s.op = .cmd .hdrParse ∧ s.hIdx.toNat = 54 ∧
        ¬(s.hbuf.read 0 = 0x42#8 ∧ s.hbuf.read 1 = 0x4D#8)
    | .truncatedStream => code = 0x2#4 ∧ s.op = .cmd .decode ∧ s.dPhase = .value ∧ s.inq.head? = some .endTok
    | .emptyBuffer => code = 0x3#4 ∧ s.op = .cmd .encode ∧ s.eHave = false ∧ s.inq.head? = some .endTok
    | .truncatedHeader => code = 0x4#4 ∧ s.op = .cmd .hdrParse ∧ s.hIdx.toNat < 54 ∧ s.inq.head? = some .endTok
    | .noHeader => code = 0x5#4 ∧ s.op = .cmd .hdrEmit ∧ s.hdrValid = false
    | .illegalCommand => code = 0x6#4 ∧ s.op = .illegal
end

