-- ==== Sys2Proof/Laws/Memory.lean ====
section
/-! SUPPORT. The laws of the header buffer: a write keeps the canonical form, a read after a write, and that equal
contents are equal lists. -/

namespace Sys2Proof.Machine

@[simp] theorem Memory.read_nil (a : Nat) : Memory.read [] a = 0 := rfl

theorem Memory.read_cons (c : Host.Cell) (m : Memory) (a : Nat) :
    Memory.read (c :: m) a = if c.1 = a then c.2 else Memory.read m a := rfl

/-- An address below every cell reads as 0x00. -/
theorem Memory.read_below {m : Memory} {a : Nat} (h : ∀ c ∈ m, a < c.1) : m.read a = 0 := by
  induction m with
  | nil => rfl
  | cons c rest ih =>
    have hc := h c (by simp)
    rw [Memory.read_cons, if_neg (by omega), ih fun d hd => h d (by simp [hd])]

/-- The addresses after a write are the old ones and the written one. -/
theorem Memory.mem_write {m : Memory} {a : Nat} {b : Byte} {c : Host.Cell} (h : c ∈ m.write a b) :
    c ∈ m ∨ (c = (a, b) ∧ b ≠ 0) := by
  induction m with
  | nil => by_cases hb : b = 0 <;> simp_all [Memory.write]
  | cons d rest ih =>
    unfold Memory.write at h
    split_ifs at h <;> simp only [List.mem_cons] at h ⊢ <;> tauto

/-- Every write below 54 keeps the canonical form. -/
theorem Memory.write_wf {m : Memory} {a : Nat} {b : Byte} (hm : m.wf) (ha : a < 54) : (m.write a b).wf := by
  refine ⟨?_, fun c hc => ?_⟩
  · obtain ⟨hp, -⟩ := hm
    induction m with
    | nil =>
      unfold Memory.write
      split <;> simp
    | cons d rest ih =>
      obtain ⟨hd, hrest⟩ := List.pairwise_cons.mp hp
      unfold Memory.write
      split_ifs with h1 h2 h3 h4
      · exact hp
      · refine List.pairwise_cons.mpr ⟨fun c hc => ?_, hp⟩
        rcases List.mem_cons.mp hc with rfl | hc
        · exact h1
        · exact h1.trans (hd c hc)
      · exact hrest
      · exact List.pairwise_cons.mpr ⟨fun c hc => h3 ▸ hd c hc, hrest⟩
      · refine List.pairwise_cons.mpr ⟨fun c hc => ?_, ih hrest⟩
        rcases Memory.mem_write hc with hc | ⟨rfl, -⟩
        · exact hd c hc
        · simp only; omega
  · rcases Memory.mem_write hc with hc | ⟨rfl, hb⟩
    · exact hm.2 c hc
    · exact ⟨ha, hb⟩

/-- A read after a write: the written byte at the written address, the old byte everywhere else. -/
theorem Memory.read_write {m : Memory} {a : Nat} {b : Byte} (hm : m.wf) (x : Nat) :
    (m.write a b).read x = if x = a then b else m.read x := by
  obtain ⟨hp, -⟩ := hm
  induction m with
  | nil =>
    unfold Memory.write
    split
    · simp_all
    · simp only [Memory.read_cons, @eq_comm _ a x]
  | cons d rest ih =>
    obtain ⟨hd, hrest⟩ := List.pairwise_cons.mp hp
    have below : a < d.1 → Memory.read (d :: rest) a = 0 := fun h => Memory.read_below fun c hc => by
      rcases List.mem_cons.mp hc with rfl | hc
      · exact h
      · exact h.trans (hd c hc)
    have skip : a = d.1 → Memory.read rest a = 0 := fun h => Memory.read_below fun c hc => h ▸ hd c hc
    unfold Memory.write
    by_cases h1 : a < d.1
    · rw [if_pos h1]
      split
      · by_cases hx : x = a
        · simp_all
        · rw [if_neg hx]
      · rw [Memory.read_cons]
        simp only [@eq_comm _ a x]
    · rw [if_neg h1]
      by_cases h2 : a = d.1
      · rw [if_pos h2]
        by_cases hx : x = a
        · subst hx
          split
          · simp_all
          · simp [Memory.read_cons]
        · have hne : d.1 ≠ x := by omega
          split <;> simp [Memory.read_cons, hne, Ne.symm hx]
      · rw [if_neg h2, Memory.read_cons, Memory.read_cons, ih hrest]
        by_cases hx : d.1 = x
        · rw [if_pos hx, if_pos hx, if_neg (by omega)]
        · rw [if_neg hx, if_neg hx]

/-- The buffer right after reset is in canonical form, and every byte of it is 0x00 (10_state R35). -/
theorem Memory.reset_wf : Memory.wf State.reset.hbuf := by decide

end Sys2Proof.Machine
end

