-- ==== Sys2Proof/Laws/State.lean ====
section
/-! SUPPORT. One lemma per field of State for each named update, so that no later proof unfolds a record update; the
error termination and the taking of a token are reduced to those. -/

namespace Sys2Proof.Machine

/-- `raise E` is `complete(E)` (00_scope R12). -/
@[simp] theorem State.raise_eq (s : State) (e : Err) : s.raise e = s.complete e := rfl

@[simp] theorem State.complete_busy (s : State) (e : Err) : (s.complete e).busy = false := rfl
@[simp] theorem State.complete_done (s : State) (e : Err) : (s.complete e).done = true := rfl
@[simp] theorem State.complete_hdrValid (s : State) (e : Err) : (s.complete e).hdrValid = s.hdrValid := rfl
@[simp] theorem State.complete_ovr (s : State) (e : Err) : (s.complete e).ovr = s.ovr := rfl
@[simp] theorem State.complete_err (s : State) (e : Err) : (s.complete e).err = e := rfl
@[simp] theorem State.complete_inCount (s : State) (e : Err) : (s.complete e).inCount = s.inCount := rfl
@[simp] theorem State.complete_outCount (s : State) (e : Err) : (s.complete e).outCount = s.outCount := rfl
@[simp] theorem State.complete_op (s : State) (e : Err) : (s.complete e).op = s.op := rfl
@[simp] theorem State.complete_hIdx (s : State) (e : Err) : (s.complete e).hIdx = s.hIdx := rfl
@[simp] theorem State.complete_ePrev (s : State) (e : Err) : (s.complete e).ePrev = s.ePrev := rfl
@[simp] theorem State.complete_eCnt (s : State) (e : Err) : (s.complete e).eCnt = s.eCnt := rfl
@[simp] theorem State.complete_eHave (s : State) (e : Err) : (s.complete e).eHave = s.eHave := rfl
@[simp] theorem State.complete_eFin (s : State) (e : Err) : (s.complete e).eFin = s.eFin := rfl
@[simp] theorem State.complete_dPhase (s : State) (e : Err) : (s.complete e).dPhase = s.dPhase := rfl
@[simp] theorem State.complete_dRem (s : State) (e : Err) : (s.complete e).dRem = s.dRem := rfl
@[simp] theorem State.complete_dVal (s : State) (e : Err) : (s.complete e).dVal = s.dVal := rfl
@[simp] theorem State.complete_hbuf (s : State) (e : Err) : (s.complete e).hbuf = s.hbuf := rfl
@[simp] theorem State.complete_inq (s : State) (e : Err) : (s.complete e).inq = s.inq := rfl
@[simp] theorem State.complete_oq (s : State) (e : Err) : (s.complete e).oq = s.oq := rfl
@[simp] theorem State.complete_out (s : State) (e : Err) : (s.complete e).out = s.out := rfl
@[simp] theorem State.complete_inDepth (s : State) (e : Err) : (s.complete e).inDepth = s.inDepth := rfl
@[simp] theorem State.complete_outDepth (s : State) (e : Err) : (s.complete e).outDepth = s.outDepth := rfl
@[simp] theorem State.complete_outTaken (s : State) (e : Err) : (s.complete e).outTaken = s.outTaken := rfl
@[simp] theorem State.complete_host (s : State) (e : Err) : (s.complete e).host = s.host := rfl
@[simp] theorem State.complete_sched (s : State) (e : Err) : (s.complete e).sched = s.sched := rfl
@[simp] theorem State.complete_reads (s : State) (e : Err) : (s.complete e).reads = s.reads := rfl

@[simp] theorem State.accept_busy (s : State) (o : Op) : (s.accept o).busy = true := rfl
@[simp] theorem State.accept_done (s : State) (o : Op) : (s.accept o).done = false := rfl
@[simp] theorem State.accept_hdrValid (s : State) (o : Op) : (s.accept o).hdrValid = s.hdrValid := rfl
@[simp] theorem State.accept_ovr (s : State) (o : Op) : (s.accept o).ovr = false := rfl
@[simp] theorem State.accept_err (s : State) (o : Op) : (s.accept o).err = .none := rfl
@[simp] theorem State.accept_inCount (s : State) (o : Op) : (s.accept o).inCount = 0 := rfl
@[simp] theorem State.accept_outCount (s : State) (o : Op) : (s.accept o).outCount = 0 := rfl
@[simp] theorem State.accept_op (s : State) (o : Op) : (s.accept o).op = o := rfl
@[simp] theorem State.accept_hIdx (s : State) (o : Op) : (s.accept o).hIdx = s.hIdx := rfl
@[simp] theorem State.accept_ePrev (s : State) (o : Op) : (s.accept o).ePrev = s.ePrev := rfl
@[simp] theorem State.accept_eCnt (s : State) (o : Op) : (s.accept o).eCnt = s.eCnt := rfl
@[simp] theorem State.accept_eHave (s : State) (o : Op) : (s.accept o).eHave = s.eHave := rfl
@[simp] theorem State.accept_eFin (s : State) (o : Op) : (s.accept o).eFin = s.eFin := rfl
@[simp] theorem State.accept_dPhase (s : State) (o : Op) : (s.accept o).dPhase = s.dPhase := rfl
@[simp] theorem State.accept_dRem (s : State) (o : Op) : (s.accept o).dRem = s.dRem := rfl
@[simp] theorem State.accept_dVal (s : State) (o : Op) : (s.accept o).dVal = s.dVal := rfl
@[simp] theorem State.accept_hbuf (s : State) (o : Op) : (s.accept o).hbuf = s.hbuf := rfl
@[simp] theorem State.accept_inq (s : State) (o : Op) : (s.accept o).inq = s.inq := rfl
@[simp] theorem State.accept_oq (s : State) (o : Op) : (s.accept o).oq = s.oq := rfl
@[simp] theorem State.accept_out (s : State) (o : Op) : (s.accept o).out = s.out := rfl
@[simp] theorem State.accept_inDepth (s : State) (o : Op) : (s.accept o).inDepth = s.inDepth := rfl
@[simp] theorem State.accept_outDepth (s : State) (o : Op) : (s.accept o).outDepth = s.outDepth := rfl
@[simp] theorem State.accept_outTaken (s : State) (o : Op) : (s.accept o).outTaken = s.outTaken := rfl
@[simp] theorem State.accept_host (s : State) (o : Op) : (s.accept o).host = s.host := rfl
@[simp] theorem State.accept_sched (s : State) (o : Op) : (s.accept o).sched = s.sched := rfl
@[simp] theorem State.accept_reads (s : State) (o : Op) : (s.accept o).reads = s.reads := rfl

@[simp] theorem State.outPush_busy (s : State) (b : Byte) : (s.outPush b).busy = s.busy := rfl
@[simp] theorem State.outPush_done (s : State) (b : Byte) : (s.outPush b).done = s.done := rfl
@[simp] theorem State.outPush_hdrValid (s : State) (b : Byte) : (s.outPush b).hdrValid = s.hdrValid := rfl
@[simp] theorem State.outPush_ovr (s : State) (b : Byte) : (s.outPush b).ovr = s.ovr := rfl
@[simp] theorem State.outPush_err (s : State) (b : Byte) : (s.outPush b).err = s.err := rfl
@[simp] theorem State.outPush_inCount (s : State) (b : Byte) : (s.outPush b).inCount = s.inCount := rfl
@[simp] theorem State.outPush_outCount (s : State) (b : Byte) : (s.outPush b).outCount = s.outCount := rfl
@[simp] theorem State.outPush_op (s : State) (b : Byte) : (s.outPush b).op = s.op := rfl
@[simp] theorem State.outPush_hIdx (s : State) (b : Byte) : (s.outPush b).hIdx = s.hIdx := rfl
@[simp] theorem State.outPush_ePrev (s : State) (b : Byte) : (s.outPush b).ePrev = s.ePrev := rfl
@[simp] theorem State.outPush_eCnt (s : State) (b : Byte) : (s.outPush b).eCnt = s.eCnt := rfl
@[simp] theorem State.outPush_eHave (s : State) (b : Byte) : (s.outPush b).eHave = s.eHave := rfl
@[simp] theorem State.outPush_eFin (s : State) (b : Byte) : (s.outPush b).eFin = s.eFin := rfl
@[simp] theorem State.outPush_dPhase (s : State) (b : Byte) : (s.outPush b).dPhase = s.dPhase := rfl
@[simp] theorem State.outPush_dRem (s : State) (b : Byte) : (s.outPush b).dRem = s.dRem := rfl
@[simp] theorem State.outPush_dVal (s : State) (b : Byte) : (s.outPush b).dVal = s.dVal := rfl
@[simp] theorem State.outPush_hbuf (s : State) (b : Byte) : (s.outPush b).hbuf = s.hbuf := rfl
@[simp] theorem State.outPush_inq (s : State) (b : Byte) : (s.outPush b).inq = s.inq := rfl
@[simp] theorem State.outPush_oq (s : State) (b : Byte) : (s.outPush b).oq = s.oq ++ [b] := rfl
@[simp] theorem State.outPush_out (s : State) (b : Byte) : (s.outPush b).out = s.out := rfl
@[simp] theorem State.outPush_inDepth (s : State) (b : Byte) : (s.outPush b).inDepth = s.inDepth := rfl
@[simp] theorem State.outPush_outDepth (s : State) (b : Byte) : (s.outPush b).outDepth = s.outDepth := rfl
@[simp] theorem State.outPush_outTaken (s : State) (b : Byte) : (s.outPush b).outTaken = s.outTaken := rfl
@[simp] theorem State.outPush_host (s : State) (b : Byte) : (s.outPush b).host = s.host := rfl
@[simp] theorem State.outPush_sched (s : State) (b : Byte) : (s.outPush b).sched = s.sched := rfl
@[simp] theorem State.outPush_reads (s : State) (b : Byte) : (s.outPush b).reads = s.reads := rfl

@[simp] theorem State.drain_busy (s : State) (b : Byte) (rest : List Byte) : (s.drain b rest).busy = s.busy := rfl
@[simp] theorem State.drain_done (s : State) (b : Byte) (rest : List Byte) : (s.drain b rest).done = s.done := rfl
@[simp] theorem State.drain_hdrValid (s : State) (b : Byte) (rest : List Byte) : (s.drain b rest).hdrValid = s.hdrValid := rfl
@[simp] theorem State.drain_ovr (s : State) (b : Byte) (rest : List Byte) : (s.drain b rest).ovr = s.ovr := rfl
@[simp] theorem State.drain_err (s : State) (b : Byte) (rest : List Byte) : (s.drain b rest).err = s.err := rfl
@[simp] theorem State.drain_inCount (s : State) (b : Byte) (rest : List Byte) : (s.drain b rest).inCount = s.inCount := rfl
@[simp] theorem State.drain_outCount (s : State) (b : Byte) (rest : List Byte) : (s.drain b rest).outCount = s.outCount + 1 := rfl
@[simp] theorem State.drain_op (s : State) (b : Byte) (rest : List Byte) : (s.drain b rest).op = s.op := rfl
@[simp] theorem State.drain_hIdx (s : State) (b : Byte) (rest : List Byte) : (s.drain b rest).hIdx = s.hIdx := rfl
@[simp] theorem State.drain_ePrev (s : State) (b : Byte) (rest : List Byte) : (s.drain b rest).ePrev = s.ePrev := rfl
@[simp] theorem State.drain_eCnt (s : State) (b : Byte) (rest : List Byte) : (s.drain b rest).eCnt = s.eCnt := rfl
@[simp] theorem State.drain_eHave (s : State) (b : Byte) (rest : List Byte) : (s.drain b rest).eHave = s.eHave := rfl
@[simp] theorem State.drain_eFin (s : State) (b : Byte) (rest : List Byte) : (s.drain b rest).eFin = s.eFin := rfl
@[simp] theorem State.drain_dPhase (s : State) (b : Byte) (rest : List Byte) : (s.drain b rest).dPhase = s.dPhase := rfl
@[simp] theorem State.drain_dRem (s : State) (b : Byte) (rest : List Byte) : (s.drain b rest).dRem = s.dRem := rfl
@[simp] theorem State.drain_dVal (s : State) (b : Byte) (rest : List Byte) : (s.drain b rest).dVal = s.dVal := rfl
@[simp] theorem State.drain_hbuf (s : State) (b : Byte) (rest : List Byte) : (s.drain b rest).hbuf = s.hbuf := rfl
@[simp] theorem State.drain_inq (s : State) (b : Byte) (rest : List Byte) : (s.drain b rest).inq = s.inq := rfl
@[simp] theorem State.drain_oq (s : State) (b : Byte) (rest : List Byte) : (s.drain b rest).oq = rest := rfl
@[simp] theorem State.drain_out (s : State) (b : Byte) (rest : List Byte) : (s.drain b rest).out = s.out ++ [b] := rfl
@[simp] theorem State.drain_inDepth (s : State) (b : Byte) (rest : List Byte) : (s.drain b rest).inDepth = s.inDepth := rfl
@[simp] theorem State.drain_outDepth (s : State) (b : Byte) (rest : List Byte) : (s.drain b rest).outDepth = s.outDepth := rfl
@[simp] theorem State.drain_outTaken (s : State) (b : Byte) (rest : List Byte) : (s.drain b rest).outTaken = s.outTaken := rfl
@[simp] theorem State.drain_host (s : State) (b : Byte) (rest : List Byte) : (s.drain b rest).host = s.host := rfl
@[simp] theorem State.drain_sched (s : State) (b : Byte) (rest : List Byte) : (s.drain b rest).sched = s.sched := rfl
@[simp] theorem State.drain_reads (s : State) (b : Byte) (rest : List Byte) : (s.drain b rest).reads = s.reads := rfl

@[simp] theorem State.applyReset_busy (s : State) : (s.applyReset).busy = State.reset.busy := rfl
@[simp] theorem State.applyReset_done (s : State) : (s.applyReset).done = State.reset.done := rfl
@[simp] theorem State.applyReset_hdrValid (s : State) : (s.applyReset).hdrValid = State.reset.hdrValid := rfl
@[simp] theorem State.applyReset_ovr (s : State) : (s.applyReset).ovr = State.reset.ovr := rfl
@[simp] theorem State.applyReset_err (s : State) : (s.applyReset).err = State.reset.err := rfl
@[simp] theorem State.applyReset_inCount (s : State) : (s.applyReset).inCount = State.reset.inCount := rfl
@[simp] theorem State.applyReset_outCount (s : State) : (s.applyReset).outCount = State.reset.outCount := rfl
@[simp] theorem State.applyReset_op (s : State) : (s.applyReset).op = State.reset.op := rfl
@[simp] theorem State.applyReset_hIdx (s : State) : (s.applyReset).hIdx = State.reset.hIdx := rfl
@[simp] theorem State.applyReset_ePrev (s : State) : (s.applyReset).ePrev = State.reset.ePrev := rfl
@[simp] theorem State.applyReset_eCnt (s : State) : (s.applyReset).eCnt = State.reset.eCnt := rfl
@[simp] theorem State.applyReset_eHave (s : State) : (s.applyReset).eHave = State.reset.eHave := rfl
@[simp] theorem State.applyReset_eFin (s : State) : (s.applyReset).eFin = State.reset.eFin := rfl
@[simp] theorem State.applyReset_dPhase (s : State) : (s.applyReset).dPhase = State.reset.dPhase := rfl
@[simp] theorem State.applyReset_dRem (s : State) : (s.applyReset).dRem = State.reset.dRem := rfl
@[simp] theorem State.applyReset_dVal (s : State) : (s.applyReset).dVal = State.reset.dVal := rfl
@[simp] theorem State.applyReset_hbuf (s : State) : (s.applyReset).hbuf = State.reset.hbuf := rfl
@[simp] theorem State.applyReset_inq (s : State) : (s.applyReset).inq = State.reset.inq := rfl
@[simp] theorem State.applyReset_oq (s : State) : (s.applyReset).oq = State.reset.oq := rfl
@[simp] theorem State.applyReset_out (s : State) : (s.applyReset).out = s.out := rfl
@[simp] theorem State.applyReset_inDepth (s : State) : (s.applyReset).inDepth = s.inDepth := rfl
@[simp] theorem State.applyReset_outDepth (s : State) : (s.applyReset).outDepth = s.outDepth := rfl
@[simp] theorem State.applyReset_outTaken (s : State) : (s.applyReset).outTaken = s.outTaken := rfl
@[simp] theorem State.applyReset_host (s : State) : (s.applyReset).host = s.host := rfl
@[simp] theorem State.applyReset_sched (s : State) : (s.applyReset).sched = s.sched := rfl
@[simp] theorem State.applyReset_reads (s : State) : (s.applyReset).reads = s.reads := rfl

@[simp] theorem State.pushToken_busy (s : State) (t : Token) : (s.pushToken t).busy = s.busy := rfl
@[simp] theorem State.pushToken_done (s : State) (t : Token) : (s.pushToken t).done = s.done := rfl
@[simp] theorem State.pushToken_hdrValid (s : State) (t : Token) : (s.pushToken t).hdrValid = s.hdrValid := rfl
@[simp] theorem State.pushToken_ovr (s : State) (t : Token) : (s.pushToken t).ovr = s.ovr := rfl
@[simp] theorem State.pushToken_err (s : State) (t : Token) : (s.pushToken t).err = s.err := rfl
@[simp] theorem State.pushToken_inCount (s : State) (t : Token) : (s.pushToken t).inCount = s.inCount := rfl
@[simp] theorem State.pushToken_outCount (s : State) (t : Token) : (s.pushToken t).outCount = s.outCount := rfl
@[simp] theorem State.pushToken_op (s : State) (t : Token) : (s.pushToken t).op = s.op := rfl
@[simp] theorem State.pushToken_hIdx (s : State) (t : Token) : (s.pushToken t).hIdx = s.hIdx := rfl
@[simp] theorem State.pushToken_ePrev (s : State) (t : Token) : (s.pushToken t).ePrev = s.ePrev := rfl
@[simp] theorem State.pushToken_eCnt (s : State) (t : Token) : (s.pushToken t).eCnt = s.eCnt := rfl
@[simp] theorem State.pushToken_eHave (s : State) (t : Token) : (s.pushToken t).eHave = s.eHave := rfl
@[simp] theorem State.pushToken_eFin (s : State) (t : Token) : (s.pushToken t).eFin = s.eFin := rfl
@[simp] theorem State.pushToken_dPhase (s : State) (t : Token) : (s.pushToken t).dPhase = s.dPhase := rfl
@[simp] theorem State.pushToken_dRem (s : State) (t : Token) : (s.pushToken t).dRem = s.dRem := rfl
@[simp] theorem State.pushToken_dVal (s : State) (t : Token) : (s.pushToken t).dVal = s.dVal := rfl
@[simp] theorem State.pushToken_hbuf (s : State) (t : Token) : (s.pushToken t).hbuf = s.hbuf := rfl
@[simp] theorem State.pushToken_inq (s : State) (t : Token) : (s.pushToken t).inq = s.inq ++ [t] := rfl
@[simp] theorem State.pushToken_oq (s : State) (t : Token) : (s.pushToken t).oq = s.oq := rfl
@[simp] theorem State.pushToken_out (s : State) (t : Token) : (s.pushToken t).out = s.out := rfl
@[simp] theorem State.pushToken_inDepth (s : State) (t : Token) : (s.pushToken t).inDepth = s.inDepth := rfl
@[simp] theorem State.pushToken_outDepth (s : State) (t : Token) : (s.pushToken t).outDepth = s.outDepth := rfl
@[simp] theorem State.pushToken_outTaken (s : State) (t : Token) : (s.pushToken t).outTaken = s.outTaken := rfl
@[simp] theorem State.pushToken_host (s : State) (t : Token) : (s.pushToken t).host = s.host := rfl
@[simp] theorem State.pushToken_sched (s : State) (t : Token) : (s.pushToken t).sched = s.sched := rfl
@[simp] theorem State.pushToken_reads (s : State) (t : Token) : (s.pushToken t).reads = s.reads := rfl

@[simp] theorem State.logRead_busy (s : State) (off : RegAddr) : (s.logRead off).busy = s.busy := rfl
@[simp] theorem State.logRead_done (s : State) (off : RegAddr) : (s.logRead off).done = s.done := rfl
@[simp] theorem State.logRead_hdrValid (s : State) (off : RegAddr) : (s.logRead off).hdrValid = s.hdrValid := rfl
@[simp] theorem State.logRead_ovr (s : State) (off : RegAddr) : (s.logRead off).ovr = s.ovr := rfl
@[simp] theorem State.logRead_err (s : State) (off : RegAddr) : (s.logRead off).err = s.err := rfl
@[simp] theorem State.logRead_inCount (s : State) (off : RegAddr) : (s.logRead off).inCount = s.inCount := rfl
@[simp] theorem State.logRead_outCount (s : State) (off : RegAddr) : (s.logRead off).outCount = s.outCount := rfl
@[simp] theorem State.logRead_op (s : State) (off : RegAddr) : (s.logRead off).op = s.op := rfl
@[simp] theorem State.logRead_hIdx (s : State) (off : RegAddr) : (s.logRead off).hIdx = s.hIdx := rfl
@[simp] theorem State.logRead_ePrev (s : State) (off : RegAddr) : (s.logRead off).ePrev = s.ePrev := rfl
@[simp] theorem State.logRead_eCnt (s : State) (off : RegAddr) : (s.logRead off).eCnt = s.eCnt := rfl
@[simp] theorem State.logRead_eHave (s : State) (off : RegAddr) : (s.logRead off).eHave = s.eHave := rfl
@[simp] theorem State.logRead_eFin (s : State) (off : RegAddr) : (s.logRead off).eFin = s.eFin := rfl
@[simp] theorem State.logRead_dPhase (s : State) (off : RegAddr) : (s.logRead off).dPhase = s.dPhase := rfl
@[simp] theorem State.logRead_dRem (s : State) (off : RegAddr) : (s.logRead off).dRem = s.dRem := rfl
@[simp] theorem State.logRead_dVal (s : State) (off : RegAddr) : (s.logRead off).dVal = s.dVal := rfl
@[simp] theorem State.logRead_hbuf (s : State) (off : RegAddr) : (s.logRead off).hbuf = s.hbuf := rfl
@[simp] theorem State.logRead_inq (s : State) (off : RegAddr) : (s.logRead off).inq = s.inq := rfl
@[simp] theorem State.logRead_oq (s : State) (off : RegAddr) : (s.logRead off).oq = s.oq := rfl
@[simp] theorem State.logRead_out (s : State) (off : RegAddr) : (s.logRead off).out = s.out := rfl
@[simp] theorem State.logRead_inDepth (s : State) (off : RegAddr) : (s.logRead off).inDepth = s.inDepth := rfl
@[simp] theorem State.logRead_outDepth (s : State) (off : RegAddr) : (s.logRead off).outDepth = s.outDepth := rfl
@[simp] theorem State.logRead_outTaken (s : State) (off : RegAddr) : (s.logRead off).outTaken = s.outTaken := rfl
@[simp] theorem State.logRead_host (s : State) (off : RegAddr) : (s.logRead off).host = s.host := rfl
@[simp] theorem State.logRead_sched (s : State) (off : RegAddr) : (s.logRead off).sched = s.sched := rfl
@[simp] theorem State.logRead_reads (s : State) (off : RegAddr) : (s.logRead off).reads = s.reads ++ [(off, s.regRead off)] := rfl

@[simp] theorem State.popTurn_busy (s : State) : (s.popTurn).busy = s.busy := rfl
@[simp] theorem State.popTurn_done (s : State) : (s.popTurn).done = s.done := rfl
@[simp] theorem State.popTurn_hdrValid (s : State) : (s.popTurn).hdrValid = s.hdrValid := rfl
@[simp] theorem State.popTurn_ovr (s : State) : (s.popTurn).ovr = s.ovr := rfl
@[simp] theorem State.popTurn_err (s : State) : (s.popTurn).err = s.err := rfl
@[simp] theorem State.popTurn_inCount (s : State) : (s.popTurn).inCount = s.inCount := rfl
@[simp] theorem State.popTurn_outCount (s : State) : (s.popTurn).outCount = s.outCount := rfl
@[simp] theorem State.popTurn_op (s : State) : (s.popTurn).op = s.op := rfl
@[simp] theorem State.popTurn_hIdx (s : State) : (s.popTurn).hIdx = s.hIdx := rfl
@[simp] theorem State.popTurn_ePrev (s : State) : (s.popTurn).ePrev = s.ePrev := rfl
@[simp] theorem State.popTurn_eCnt (s : State) : (s.popTurn).eCnt = s.eCnt := rfl
@[simp] theorem State.popTurn_eHave (s : State) : (s.popTurn).eHave = s.eHave := rfl
@[simp] theorem State.popTurn_eFin (s : State) : (s.popTurn).eFin = s.eFin := rfl
@[simp] theorem State.popTurn_dPhase (s : State) : (s.popTurn).dPhase = s.dPhase := rfl
@[simp] theorem State.popTurn_dRem (s : State) : (s.popTurn).dRem = s.dRem := rfl
@[simp] theorem State.popTurn_dVal (s : State) : (s.popTurn).dVal = s.dVal := rfl
@[simp] theorem State.popTurn_hbuf (s : State) : (s.popTurn).hbuf = s.hbuf := rfl
@[simp] theorem State.popTurn_inq (s : State) : (s.popTurn).inq = s.inq := rfl
@[simp] theorem State.popTurn_oq (s : State) : (s.popTurn).oq = s.oq := rfl
@[simp] theorem State.popTurn_out (s : State) : (s.popTurn).out = s.out := rfl
@[simp] theorem State.popTurn_inDepth (s : State) : (s.popTurn).inDepth = s.inDepth := rfl
@[simp] theorem State.popTurn_outDepth (s : State) : (s.popTurn).outDepth = s.outDepth := rfl
@[simp] theorem State.popTurn_outTaken (s : State) : (s.popTurn).outTaken = s.outTaken := rfl
@[simp] theorem State.popTurn_host (s : State) : (s.popTurn).host = s.host := rfl
@[simp] theorem State.popTurn_sched (s : State) : (s.popTurn).sched = s.sched.tail := rfl
@[simp] theorem State.popTurn_reads (s : State) : (s.popTurn).reads = s.reads := rfl

/-- `InTake()` of a `Byte`: the token leaves, IN_COUNT goes up by one (10_state R26). -/
theorem State.inTake_of_byte {s : State} {b : Byte} {rest : List Token} (h : s.inq = .byte b :: rest) :
    s.inTake = { s with inq := rest, inCount := s.inCount + 1 } := by simp [State.inTake, h]

/-- `InTake()` of END: the token leaves and is not counted (10_state R26). -/
theorem State.inTake_of_end {s : State} {rest : List Token} (h : s.inq = .endTok :: rest) :
    s.inTake = { s with inq := rest } := by simp [State.inTake, h]

@[simp] theorem State.inTake_busy (s : State) : s.inTake.busy = s.busy := by unfold State.inTake; split <;> rfl
@[simp] theorem State.inTake_done (s : State) : s.inTake.done = s.done := by unfold State.inTake; split <;> rfl
@[simp] theorem State.inTake_hdrValid (s : State) : s.inTake.hdrValid = s.hdrValid := by unfold State.inTake; split <;> rfl
@[simp] theorem State.inTake_ovr (s : State) : s.inTake.ovr = s.ovr := by unfold State.inTake; split <;> rfl
@[simp] theorem State.inTake_err (s : State) : s.inTake.err = s.err := by unfold State.inTake; split <;> rfl
@[simp] theorem State.inTake_outCount (s : State) : s.inTake.outCount = s.outCount := by unfold State.inTake; split <;> rfl
@[simp] theorem State.inTake_op (s : State) : s.inTake.op = s.op := by unfold State.inTake; split <;> rfl
@[simp] theorem State.inTake_hIdx (s : State) : s.inTake.hIdx = s.hIdx := by unfold State.inTake; split <;> rfl
@[simp] theorem State.inTake_ePrev (s : State) : s.inTake.ePrev = s.ePrev := by unfold State.inTake; split <;> rfl
@[simp] theorem State.inTake_eCnt (s : State) : s.inTake.eCnt = s.eCnt := by unfold State.inTake; split <;> rfl
@[simp] theorem State.inTake_eHave (s : State) : s.inTake.eHave = s.eHave := by unfold State.inTake; split <;> rfl
@[simp] theorem State.inTake_eFin (s : State) : s.inTake.eFin = s.eFin := by unfold State.inTake; split <;> rfl
@[simp] theorem State.inTake_dPhase (s : State) : s.inTake.dPhase = s.dPhase := by unfold State.inTake; split <;> rfl
@[simp] theorem State.inTake_dRem (s : State) : s.inTake.dRem = s.dRem := by unfold State.inTake; split <;> rfl
@[simp] theorem State.inTake_dVal (s : State) : s.inTake.dVal = s.dVal := by unfold State.inTake; split <;> rfl
@[simp] theorem State.inTake_hbuf (s : State) : s.inTake.hbuf = s.hbuf := by unfold State.inTake; split <;> rfl
@[simp] theorem State.inTake_oq (s : State) : s.inTake.oq = s.oq := by unfold State.inTake; split <;> rfl
@[simp] theorem State.inTake_out (s : State) : s.inTake.out = s.out := by unfold State.inTake; split <;> rfl
@[simp] theorem State.inTake_inDepth (s : State) : s.inTake.inDepth = s.inDepth := by unfold State.inTake; split <;> rfl
@[simp] theorem State.inTake_outDepth (s : State) : s.inTake.outDepth = s.outDepth := by unfold State.inTake; split <;> rfl
@[simp] theorem State.inTake_outTaken (s : State) : s.inTake.outTaken = s.outTaken := by unfold State.inTake; split <;> rfl
@[simp] theorem State.inTake_host (s : State) : s.inTake.host = s.host := by unfold State.inTake; split <;> rfl
@[simp] theorem State.inTake_sched (s : State) : s.inTake.sched = s.sched := by unfold State.inTake; split <;> rfl
@[simp] theorem State.inTake_reads (s : State) : s.inTake.reads = s.reads := by unfold State.inTake; split <;> rfl

@[simp] theorem State.inTake_inq (s : State) : s.inTake.inq = s.inq.tail := by
  unfold State.inTake; split <;> simp_all

/-- `InPeek()` (00_scope R12). -/
theorem State.inPeek_eq_none {s : State} : s.inPeek = none ↔ s.inq = [] := by simp [State.inPeek]

theorem State.inPeek_eq_some {s : State} {t : Token} : s.inPeek = some t ↔ ∃ rest, s.inq = t :: rest := by
  unfold State.inPeek
  cases s.inq <;> simp

end Sys2Proof.Machine
end

