-- ==== Sys2Proof/Laws/Ops.lean ====
section
/-! SUPPORT. What each shared operation and each command step can do, said once: the form of a command, the four units'
steps, the block step, the host step and the step of the machine. Later proofs cite these instead of unfolding. -/

namespace Sys2Proof.Machine

/-! The form of a command. -/

theorem State.running_iff {s : State} {o : Op} : s.running o = true ↔ s.busy = true ∧ s.op = o ∧ s.oq = [] := by
  simp [State.running, and_assoc]

/-- An idle block accepts the command (40_control R88). -/
theorem command_idle {s : State} {o : Op} {init body : State → State} (h : s.busy = false) :
    command o init body s = init (s.accept o) := by simp [command, h]

/-- A command in progress with `oq` empty takes its command step (40_control R86). -/
theorem command_running {s : State} {o : Op} {init body : State → State} (hb : s.busy = true) (ho : s.op = o)
    (hq : s.oq = []) : command o init body s = body s := by
  rw [command, if_pos hb, if_pos (State.running_iff.mpr ⟨hb, ho, hq⟩)]

/-- Everything a command can do: acceptance, its command step, or nothing. -/
theorem command_cases (o : Op) (init body : State → State) (s : State) :
    (s.busy = false ∧ command o init body s = init (s.accept o)) ∨
    (s.busy = true ∧ s.op = o ∧ s.oq = [] ∧ command o init body s = body s) ∨
    (s.busy = true ∧ ¬(s.op = o ∧ s.oq = []) ∧ command o init body s = s) := by
  cases hb : s.busy
  · exact .inl ⟨rfl, command_idle hb⟩
  · by_cases h : s.op = o ∧ s.oq = []
    · exact .inr (.inl ⟨rfl, h.1, h.2, command_running hb h.1 h.2⟩)
    · refine .inr (.inr ⟨rfl, h, ?_⟩)
      have hr : ¬s.running o = true := fun hr => h (State.running_iff.mp hr).2
      rw [command, if_pos hb, if_neg hr]

/-! Each command while it is in progress. -/

theorem exec_nop_running {s : State} (hb : s.busy = true) (ho : s.op = .cmd .nop) (hq : s.oq = []) :
    exec .nop s = .next (nopStep s) := congrArg _ (command_running hb ho hq)

theorem exec_hdrParse_running {s : State} (hb : s.busy = true) (ho : s.op = .cmd .hdrParse) (hq : s.oq = []) :
    exec .hdrParse s = .next (hdrParseStep s) := congrArg _ (command_running hb ho hq)

theorem exec_hdrEmit_running {s : State} (hb : s.busy = true) (ho : s.op = .cmd .hdrEmit) (hq : s.oq = []) :
    exec .hdrEmit s = .next (hdrEmitStep s) := congrArg _ (command_running hb ho hq)

theorem exec_encode_running {s : State} (hb : s.busy = true) (ho : s.op = .cmd .encode) (hq : s.oq = []) :
    exec .encode s = .next (encodeStep s) := congrArg _ (command_running hb ho hq)

theorem exec_decode_running {s : State} (hb : s.busy = true) (ho : s.op = .cmd .decode) (hq : s.oq = []) :
    exec .decode s = .next (decodeStep s) := congrArg _ (command_running hb ho hq)

theorem execIllegal_running {s : State} (hb : s.busy = true) (ho : s.op = .illegal) (hq : s.oq = []) :
    execIllegal s = .next (illegalStep s) := congrArg _ (command_running hb ho hq)

/-! The units' command steps. -/

/-- Everything a command step of HDR_PARSE can do (41_header R100). -/
theorem hdrParseStep_cases (s : State) :
    (∃ b rest, s.hIdx.toNat < 54 ∧ s.inq = .byte b :: rest ∧ hdrParseStep s = { s with
      inq := rest, inCount := s.inCount + 1, hbuf := s.hbuf.write s.hIdx.toNat b, hIdx := s.hIdx + 1 }) ∨
    (∃ rest, s.hIdx.toNat < 54 ∧ s.inq = .endTok :: rest ∧
      hdrParseStep s = State.complete .truncatedHeader { s with inq := rest }) ∨
    (s.hIdx.toNat = 54 ∧ s.hbuf.signatureValid = true ∧
      hdrParseStep s = State.complete .none { s with hdrValid := true }) ∨
    (s.hIdx.toNat = 54 ∧ s.hbuf.signatureValid = false ∧ hdrParseStep s = s.complete .notABitmap) ∨
    (hdrParseStep s = s ∧ ((s.hIdx.toNat < 54 ∧ s.inq = []) ∨ 54 < s.hIdx.toNat)) := by
  unfold hdrParseStep hpByte hpCheck State.inPeek
  rcases Nat.lt_trichotomy s.hIdx.toNat 54 with h | h | h
  · rcases hq : s.inq with _ | ⟨_ | _, rest⟩
    · exact .inr (.inr (.inr (.inr ⟨by simp [h], .inl ⟨h, rfl⟩⟩)))
    · exact .inl ⟨_, rest, h, rfl, by simp [h, State.inTake_of_byte hq]⟩
    · exact .inr (.inl ⟨rest, h, rfl, by simp [h, State.inTake_of_end hq]⟩)
  · cases hs : s.hbuf.signatureValid
    · exact .inr (.inr (.inr (.inl ⟨h, rfl, by simp [h]⟩)))
    · exact .inr (.inr (.inl ⟨h, rfl, by simp [h]⟩))
  · exact .inr (.inr (.inr (.inr ⟨by rw [if_neg (by omega), if_neg (by omega)], .inr h⟩)))

/-- Everything a command step of HDR_EMIT can do (41_header R108). -/
theorem hdrEmitStep_cases (s : State) :
    (s.hdrValid = false ∧ hdrEmitStep s = s.complete .noHeader) ∨
    (s.hdrValid = true ∧ s.hIdx.toNat < 54 ∧ hdrEmitStep s = { s with
      oq := s.oq ++ [s.hbuf.read s.hIdx.toNat], hIdx := s.hIdx + 1 }) ∨
    (s.hdrValid = true ∧ s.hIdx.toNat = 54 ∧ hdrEmitStep s = s.complete .none) ∨
    (hdrEmitStep s = s ∧ s.hdrValid = true ∧ 54 < s.hIdx.toNat) := by
  unfold hdrEmitStep heByte
  cases hv : s.hdrValid
  · exact .inl ⟨rfl, by simp⟩
  · rcases Nat.lt_trichotomy s.hIdx.toNat 54 with h | h | h
    · exact .inr (.inl ⟨rfl, h, by simp [h, hv, State.outPush]⟩)
    · exact .inr (.inr (.inl ⟨rfl, h, by simp [h]⟩))
    · refine .inr (.inr (.inr ⟨?_, rfl, h⟩))
      rw [if_pos rfl, if_neg (by omega), if_neg (by omega)]

/-- Everything a command step of ENCODE can do (42_encoder R118). -/
theorem encodeStep_cases (s : State) :
    (s.eFin = true ∧ encodeStep s = s.complete .none) ∨
    (s.eFin = false ∧ s.inq = [] ∧ encodeStep s = s) ∨
    (∃ b rest, s.eFin = false ∧ s.eHave = false ∧ s.inq = .byte b :: rest ∧ encodeStep s = { s with
      inq := rest, inCount := s.inCount + 1, ePrev := b, eCnt := 1, eHave := true }) ∨
    (∃ rest, s.eFin = false ∧ s.eHave = false ∧ s.inq = .endTok :: rest ∧
      encodeStep s = State.complete .emptyBuffer { s with inq := rest }) ∨
    (∃ rest, s.eFin = false ∧ s.eHave = true ∧ s.inq = .byte s.ePrev :: rest ∧ s.eCnt.toNat < 255 ∧
      encodeStep s = { s with inq := rest, inCount := s.inCount + 1, eCnt := s.eCnt + 1 }) ∨
    (∃ b rest, s.eFin = false ∧ s.eHave = true ∧ s.inq = .byte b :: rest ∧ ¬(b = s.ePrev ∧ s.eCnt.toNat < 255) ∧
      encodeStep s = { s with
        inq := rest, inCount := s.inCount + 1, oq := s.oq ++ [s.eCnt, s.ePrev], ePrev := b, eCnt := 1 }) ∨
    (∃ rest, s.eFin = false ∧ s.eHave = true ∧ s.inq = .endTok :: rest ∧ encodeStep s = { s with
      inq := rest, oq := s.oq ++ [s.eCnt, s.ePrev], eFin := true }) := by
  unfold encodeStep enFirst enSame enFlush enLast pushPair State.outPush State.inPeek
  cases hf : s.eFin
  · rcases hq : s.inq with _ | ⟨b | _, rest⟩
    · exact .inr (.inl ⟨rfl, rfl, by simp⟩)
    · cases hh : s.eHave
      · exact .inr (.inr (.inl ⟨b, rest, rfl, rfl, rfl, by simp [hf, State.inTake_of_byte hq]⟩))
      · by_cases hc : b = s.ePrev ∧ s.eCnt.toNat < 255
        · refine .inr (.inr (.inr (.inr (.inl ⟨rest, rfl, rfl, by rw [hc.1], hc.2, ?_⟩))))
          simp [hc, hf, hh, State.inTake_of_byte hq]
        · refine .inr (.inr (.inr (.inr (.inr (.inl ⟨b, rest, rfl, rfl, rfl, hc, ?_⟩)))))
          simp [hc, hf, hh, State.inTake_of_byte hq]
    · cases hh : s.eHave
      · exact .inr (.inr (.inr (.inl ⟨rest, rfl, rfl, rfl, by simp [hf, hh, State.inTake_of_end hq]⟩)))
      · refine .inr (.inr (.inr (.inr (.inr (.inr ⟨rest, rfl, rfl, rfl, ?_⟩)))))
        simp [hf, hh, State.inTake_of_end hq]
  · exact .inl ⟨rfl, by simp⟩

/-- Everything a command step of DECODE can do (43_decoder R131). -/
theorem decodeStep_cases (s : State) :
    (s.dPhase ≠ .emit ∧ s.inq = [] ∧ decodeStep s = s) ∨
    (∃ c rest, s.dPhase = .count ∧ s.inq = .byte c :: rest ∧ decodeStep s = { s with
      inq := rest, inCount := s.inCount + 1, dRem := c, dPhase := .value }) ∨
    (∃ rest, s.dPhase = .count ∧ s.inq = .endTok :: rest ∧
      decodeStep s = State.complete .none { s with inq := rest }) ∨
    (∃ v rest, s.dPhase = .value ∧ s.inq = .byte v :: rest ∧ decodeStep s = { s with
      inq := rest, inCount := s.inCount + 1, dVal := v, dPhase := .emit }) ∨
    (∃ rest, s.dPhase = .value ∧ s.inq = .endTok :: rest ∧
      decodeStep s = State.complete .truncatedStream { s with inq := rest }) ∨
    (s.dPhase = .emit ∧ 0 < s.dRem.toNat ∧ decodeStep s = { s with oq := s.oq ++ [s.dVal], dRem := s.dRem - 1 }) ∨
    (s.dPhase = .emit ∧ s.dRem = 0 ∧ decodeStep s = { s with dPhase := .count }) := by
  unfold decodeStep deCnt deVal deOut deNext State.outPush State.inPeek
  cases hp : s.dPhase
  · rcases hq : s.inq with _ | ⟨c | _, rest⟩
    · exact .inl ⟨by simp, rfl, by simp⟩
    · exact .inr (.inl ⟨c, rest, rfl, rfl, by simp [State.inTake_of_byte hq]⟩)
    · exact .inr (.inr (.inl ⟨rest, rfl, rfl, by simp [hp, State.inTake_of_end hq]⟩))
  · rcases hq : s.inq with _ | ⟨v | _, rest⟩
    · exact .inl ⟨by simp, rfl, by simp⟩
    · exact .inr (.inr (.inr (.inl ⟨v, rest, rfl, rfl, by simp [State.inTake_of_byte hq]⟩)))
    · exact .inr (.inr (.inr (.inr (.inl ⟨rest, rfl, rfl, by simp [hp, State.inTake_of_end hq]⟩))))
  · by_cases hr : 0 < s.dRem.toNat
    · exact .inr (.inr (.inr (.inr (.inr (.inl ⟨rfl, hr, by simp [hr]⟩)))))
    · have h0 : s.dRem = 0 := BitVec.eq_of_toNat_eq (by simpa using hr)
      exact .inr (.inr (.inr (.inr (.inr (.inr ⟨rfl, h0, by simp [h0]⟩)))))

/-! The block step. -/

/-- The command step of whatever OP names, as a function of the state. -/
def opStep (s : State) : State :=
  match s.op with
  | .illegal => illegalStep s
  | .cmd .nop => nopStep s
  | .cmd .hdrParse => hdrParseStep s
  | .cmd .hdrEmit => hdrEmitStep s
  | .cmd .encode => encodeStep s
  | .cmd .decode => decodeStep s

theorem runOp_running {s : State} (hb : s.busy = true) (hq : s.oq = []) : runOp s = .next (opStep s) := by
  unfold runOp opStep
  rcases ho : s.op with i | _
  · cases i
    · exact exec_nop_running hb ho hq
    · exact exec_hdrParse_running hb ho hq
    · exact exec_hdrEmit_running hb ho hq
    · exact exec_encode_running hb ho hq
    · exact exec_decode_running hb ho hq
  · exact execIllegal_running hb ho hq

/-- Everything a block step can do (40_control R86). -/
theorem blockStep_cases (s : State) :
    (∃ b rest, s.oq = b :: rest ∧ s.outRoom = true ∧ blockStep s = .next (s.drain b rest)) ∨
    (s.oq ≠ [] ∧ s.outRoom = false ∧ blockStep s = .next s) ∨
    (s.oq = [] ∧ s.busy = false ∧ blockStep s = .next s) ∨
    (s.oq = [] ∧ s.busy = true ∧ blockStep s = .next (opStep s)) := by
  unfold blockStep
  rcases hq : s.oq with _ | ⟨b, rest⟩
  · cases hb : s.busy
    · exact .inr (.inr (.inl ⟨rfl, rfl, by simp⟩))
    · exact .inr (.inr (.inr ⟨rfl, rfl, by simpa using runOp_running hb hq⟩))
  · cases hr : s.outRoom
    · exact .inr (.inl ⟨by simp, rfl, by simp⟩)
    · exact .inl ⟨b, rest, rfl, rfl, by simp⟩

/-! The host step. -/

/-- Everything a CMD write can do (40_control R87, R88). -/
theorem writeCmd_cases (w : Word) (s : State) :
    (s.busy = true ∧ writeCmd w s = .next { s with ovr := true }) ∨
    (s.busy = false ∧ ∃ why, decode w = .illegal why ∧ writeCmd w s = .next (s.accept .illegal)) ∨
    (s.busy = false ∧ decode w = .legal .nop ∧ writeCmd w s = .next (s.accept (.cmd .nop))) ∨
    (s.busy = false ∧ decode w = .legal .hdrParse ∧
      writeCmd w s = .next { s.accept (.cmd .hdrParse) with hdrValid := false, hIdx := 0 }) ∨
    (s.busy = false ∧ decode w = .legal .hdrEmit ∧
      writeCmd w s = .next { s.accept (.cmd .hdrEmit) with hIdx := 0 }) ∨
    (s.busy = false ∧ decode w = .legal .encode ∧
      writeCmd w s = .next { s.accept (.cmd .encode) with eHave := false, eFin := false }) ∨
    (s.busy = false ∧ decode w = .legal .decode ∧
      writeCmd w s = .next { s.accept (.cmd .decode) with dPhase := .count }) := by
  unfold writeCmd
  cases hb : s.busy
  · rw [if_neg Bool.false_ne_true]
    rcases hd : decode w with i | why
    · cases i
      · exact .inr (.inr (.inl ⟨rfl, rfl, congrArg Host.Outcome.next (command_idle hb)⟩))
      · exact .inr (.inr (.inr (.inl ⟨rfl, rfl, congrArg Host.Outcome.next (command_idle hb)⟩)))
      · exact .inr (.inr (.inr (.inr (.inl ⟨rfl, rfl, congrArg Host.Outcome.next (command_idle hb)⟩))))
      · exact .inr (.inr (.inr (.inr (.inr (.inl ⟨rfl, rfl, congrArg Host.Outcome.next (command_idle hb)⟩)))))
      · exact .inr (.inr (.inr (.inr (.inr (.inr ⟨rfl, rfl, congrArg Host.Outcome.next (command_idle hb)⟩)))))
    · exact .inr (.inl ⟨rfl, why, rfl, congrArg Host.Outcome.next (command_idle hb)⟩)
  · exact .inl ⟨rfl, rfl⟩

/-- An offset reaches CMD exactly below 4 (20_memory R44, R45). -/
theorem regAt_eq_cmd_iff (off : RegAddr) : regAt off = .cmd ↔ off.toNat < 4 := by
  revert off; decide

/-- A register write is a CMD write or is ignored (20_memory R46). -/
theorem regWrite_cases (off : RegAddr) (w : Word) (s : State) :
    (off.toNat < 4 ∧ regWrite off w s = writeCmd w s) ∨ (4 ≤ off.toNat ∧ regWrite off w s = .next s) := by
  unfold regWrite
  by_cases h : off.toNat < 4
  · exact .inl ⟨h, if_pos ((regAt_eq_cmd_iff off).mpr h)⟩
  · exact .inr ⟨by omega, if_neg (mt (regAt_eq_cmd_iff off).mp h)⟩

/-- A host step that does not write a register: the block's own state is as it was, but for a token at the tail of `inq`,
unless the statement is a reset. -/
theorem hostStmt_cases (st : HostStmt) (rest : List HostStmt) (s : State) :
    (∃ off w, st = .wr off w ∧ hostStmt st rest s = regWrite off w { s with host := rest }) ∨
    (st = .reset ∧ hostStmt st rest s = .next { s.applyReset with host := rest }) ∨
    (∃ beat, st = .push beat ∧ s.inRoom = true ∧
      hostStmt st rest s = .next { s with inq := s.inq ++ [Token.ofBeat beat], host := rest }) ∨
    (st = .take ∧ s.outTaken < s.out.length ∧
      hostStmt st rest s = .next { s with outTaken := s.outTaken + 1, host := rest }) ∨
    (∃ h r, hostStmt st rest s = .next { s with host := h, reads := r }) := by
  cases st with
  | wr off w => exact .inl ⟨off, w, rfl, rfl⟩
  | rd off => exact .inr (.inr (.inr (.inr ⟨_, _, rfl⟩)))
  | push beat =>
    cases hr : s.inRoom
    · exact .inr (.inr (.inr (.inr ⟨s.host, s.reads, by simp [hostStmt, hr]⟩)))
    · exact .inr (.inr (.inl ⟨beat, rfl, rfl, by simp [hostStmt, hr, State.pushToken]⟩))
  | take =>
    by_cases h : s.outTaken < s.out.length
    · exact .inr (.inr (.inr (.inl ⟨rfl, h, by simp [hostStmt, h]⟩)))
    · exact .inr (.inr (.inr (.inr ⟨s.host, s.reads, by simp [hostStmt, h]⟩)))
  | reset => exact .inr (.inl ⟨rfl, rfl⟩)
  | poll => exact .inr (.inr (.inr (.inr ⟨_, _, rfl⟩)))
  | expect off hi lo v => exact .inr (.inr (.inr (.inr ⟨_, _, rfl⟩)))

/-! The step of the machine. -/

/-- A step is the block's or the host's, or nothing where the host has no statement left (00_scope R13). -/
theorem step_cases (s : State) :
    (turn s = .block ∧ step s = blockStep s.popTurn) ∨
    (turn s = .host ∧ s.host = [] ∧ step s = .next s.popTurn) ∨
    (∃ st rest, turn s = .host ∧ s.host = st :: rest ∧ step s = hostStmt st rest s.popTurn) := by
  unfold step stepOnce hostStep
  cases ht : turn s
  · rcases hh : s.host with _ | ⟨st, rest⟩
    · exact .inr (.inl ⟨rfl, rfl, by simp [hh]⟩)
    · exact .inr (.inr ⟨st, rest, rfl, rfl, by simp [hh]⟩)
  · exact .inl ⟨rfl, rfl⟩

end Sys2Proof.Machine
end

