-- ==== Sys2Proof/Laws/Frames.lean ====
section
/-! SUPPORT. How commands are accepted, and what the block's and the host's steps leave alone: a unit's command step
neither reads nor writes what it does not own, so that updating that first or last is the same. -/

namespace Sys2Proof.Machine

/-! Acceptance (40_control R88, R89). -/

theorem exec_nop_idle {s : State} (h : s.busy = false) : exec .nop s = .next (s.accept (.cmd .nop)) :=
  congrArg _ (command_idle h)

theorem exec_hdrParse_idle {s : State} (h : s.busy = false) :
    exec .hdrParse s = .next { s.accept (.cmd .hdrParse) with hdrValid := false, hIdx := 0 } :=
  congrArg _ (command_idle h)

theorem exec_hdrEmit_idle {s : State} (h : s.busy = false) :
    exec .hdrEmit s = .next { s.accept (.cmd .hdrEmit) with hIdx := 0 } := congrArg _ (command_idle h)

theorem exec_encode_idle {s : State} (h : s.busy = false) :
    exec .encode s = .next { s.accept (.cmd .encode) with eHave := false, eFin := false } :=
  congrArg _ (command_idle h)

theorem exec_decode_idle {s : State} (h : s.busy = false) :
    exec .decode s = .next { s.accept (.cmd .decode) with dPhase := .count } := congrArg _ (command_idle h)

/-! Command steps (40_control R98). -/

/-- ENCODE neither reads nor writes the header or the FIFO depths. -/
theorem encodeStep_update (s : State) (m : Memory) (v : Bool) (d e : Config.FifoDepth) :
    encodeStep { s with hbuf := m, hdrValid := v, inDepth := d, outDepth := e } =
      { encodeStep s with hbuf := m, hdrValid := v, inDepth := d, outDepth := e } := by
  rcases encodeStep_cases s with ⟨h, e⟩ | ⟨h, h', e⟩ | ⟨b, r, h1, h2, h3, e⟩ | ⟨r, h1, h2, h3, e⟩ |
    ⟨r, h1, h2, h3, h4, e⟩ | ⟨b, r, h1, h2, h3, h4, e⟩ | ⟨r, h1, h2, h3, e⟩ <;> rw [e]
  · simp [encodeStep, h, State.complete]
  · simp [encodeStep, h, State.inPeek, h']
  · simp [encodeStep, h1, h2, State.inPeek, h3, enFirst, State.inTake]
  · simp [encodeStep, h1, h2, State.inPeek, h3, State.inTake, State.complete]
  · simp [encodeStep, h1, h2, State.inPeek, h3, h4, State.inTake, enSame]
  · simp [encodeStep, h1, h2, State.inPeek, h3, h4, State.inTake, enFlush, pushPair, State.outPush]
  · simp [encodeStep, h1, h2, State.inPeek, h3, State.inTake, enLast, pushPair, State.outPush]

/-- DECODE neither reads nor writes the header or the FIFO depths. -/
theorem decodeStep_update (s : State) (m : Memory) (v : Bool) (d e : Config.FifoDepth) :
    decodeStep { s with hbuf := m, hdrValid := v, inDepth := d, outDepth := e } =
      { decodeStep s with hbuf := m, hdrValid := v, inDepth := d, outDepth := e } := by
  rcases decodeStep_cases s with ⟨h, h', e⟩ | ⟨c, r, h1, h2, e⟩ | ⟨r, h1, h2, e⟩ | ⟨v, r, h1, h2, e⟩ |
    ⟨r, h1, h2, e⟩ | ⟨h1, h2, e⟩ | ⟨h1, h2, e⟩ <;> rw [e]
  · cases hp : s.dPhase
    · simp [decodeStep, hp, State.inPeek, h']
    · simp [decodeStep, hp, State.inPeek, h']
    · exact absurd hp h
  · simp [decodeStep, h1, State.inPeek, h2, State.inTake, deCnt]
  · simp [decodeStep, h1, State.inPeek, h2, State.inTake, State.complete]
  · simp [decodeStep, h1, State.inPeek, h2, State.inTake, deVal]
  · simp [decodeStep, h1, State.inPeek, h2, State.inTake, State.complete]
  · simp [decodeStep, h1, h2, deOut, State.outPush]
  · simp [decodeStep, h1, h2, deNext]

/-- HDR_PARSE neither reads nor writes the FIFO depths. -/
theorem hdrParseStep_update (s : State) (d e : Config.FifoDepth) :
    hdrParseStep { s with inDepth := d, outDepth := e } =
      { hdrParseStep s with inDepth := d, outDepth := e } := by
  rcases hdrParseStep_cases s with ⟨b, r, h1, h2, e⟩ | ⟨r, h1, h2, e⟩ | ⟨h1, h2, e⟩ | ⟨h1, h2, e⟩ |
    ⟨e, h⟩ <;> rw [e]
  · simp [hdrParseStep, h1, State.inPeek, h2, State.inTake, hpByte]
  · simp [hdrParseStep, h1, State.inPeek, h2, State.inTake, State.complete]
  · simp [hdrParseStep, h1, hpCheck, h2, State.complete]
  · simp [hdrParseStep, h1, hpCheck, h2, State.complete]
  · rcases h with ⟨h, h'⟩ | h
    · simp [hdrParseStep, h, State.inPeek, h']
    · simp [hdrParseStep, show ¬ s.hIdx.toNat < 54 by omega, show ¬ s.hIdx.toNat = 54 by omega]

/-- HDR_EMIT neither reads nor writes the FIFO depths. -/
theorem hdrEmitStep_update (s : State) (d e : Config.FifoDepth) :
    hdrEmitStep { s with inDepth := d, outDepth := e } = { hdrEmitStep s with inDepth := d, outDepth := e } := by
  rcases hdrEmitStep_cases s with ⟨h1, e⟩ | ⟨h1, h2, e⟩ | ⟨h1, h2, e⟩ | ⟨e, h1, h2⟩ <;> rw [e]
  · simp [hdrEmitStep, h1, State.complete]
  · simp [hdrEmitStep, h1, h2, heByte, State.outPush]
  · simp [hdrEmitStep, h1, h2, State.complete]
  · simp [hdrEmitStep, h1, show ¬ s.hIdx.toNat < 54 by omega, show ¬ s.hIdx.toNat = 54 by omega]

/-- A command step delivers nothing by itself and leaves the host's side as it is. -/
theorem opStep_keeps (s : State) :
    (opStep s).out = s.out ∧ (opStep s).outCount = s.outCount ∧ (opStep s).outTaken = s.outTaken ∧
      (opStep s).op = s.op ∧ (opStep s).ovr = s.ovr ∧ (opStep s).host = s.host ∧ (opStep s).sched = s.sched ∧
      (opStep s).reads = s.reads ∧ (opStep s).inDepth = s.inDepth ∧ (opStep s).outDepth = s.outDepth := by
  unfold opStep
  rcases ho : s.op with i | _
  · cases i
    · simp [nopStep, ho]
    · rcases hdrParseStep_cases s with ⟨b, r, h1, h2, e⟩ | ⟨r, h1, h2, e⟩ | ⟨h1, h2, e⟩ | ⟨h1, h2, e⟩ |
        ⟨e, h⟩ <;> simp [e, ho]
    · rcases hdrEmitStep_cases s with ⟨h1, e⟩ | ⟨h1, h2, e⟩ | ⟨h1, h2, e⟩ | ⟨e, h1, h2⟩ <;> simp [e, ho]
    · rcases encodeStep_cases s with ⟨h, e⟩ | ⟨h, h', e⟩ | ⟨b, r, h1, h2, h3, e⟩ | ⟨r, h1, h2, h3, e⟩ |
        ⟨r, h1, h2, h3, h4, e⟩ | ⟨b, r, h1, h2, h3, h4, e⟩ | ⟨r, h1, h2, h3, e⟩ <;> simp [e, ho]
    · rcases decodeStep_cases s with ⟨h, h', e⟩ | ⟨c, r, h1, h2, e⟩ | ⟨r, h1, h2, e⟩ | ⟨v, r, h1, h2, e⟩ |
        ⟨r, h1, h2, e⟩ | ⟨h1, h2, e⟩ | ⟨h1, h2, e⟩ <;> simp [e, ho]
  · simp [illegalStep, ho]

/-! The host while a command is in progress. -/

/-- Everything a host statement that is no reset can do while BUSY = 1: add tokens at the tail of `inq`, set OVR, take a
delivered byte, and move the host's own side on. -/
theorem hostStmt_busy {s t : State} {st : HostStmt} {rest : List HostStmt} (hb : s.busy = true) (hr : st ≠ .reset)
    (h : hostStmt st rest s = .next t) :
    ∃ us o k hs r, t = { s with inq := s.inq ++ us, ovr := o, outTaken := k, host := hs, reads := r } := by
  rcases hostStmt_cases st rest s with ⟨off, w, _, e⟩ | ⟨h', e⟩ | ⟨bt, _, _, e⟩ | ⟨_, _, e⟩ | ⟨hs, r, e⟩ <;> rw [e] at h
  · rcases regWrite_cases off w { s with host := rest } with ⟨_, e⟩ | ⟨_, e⟩ <;> rw [e] at h
    · rcases writeCmd_cases w { s with host := rest } with
        ⟨_, e⟩ | ⟨g, _⟩ | ⟨g, _⟩ | ⟨g, _⟩ | ⟨g, _⟩ | ⟨g, _⟩ | ⟨g, _⟩
      · rw [e] at h; cases h
        exact ⟨[], true, s.outTaken, rest, s.reads, by simp⟩
      all_goals (simp only at g; rw [hb] at g; cases g)
    · cases h; exact ⟨[], s.ovr, s.outTaken, rest, s.reads, by simp⟩
  · exact absurd h' hr
  · cases h; exact ⟨_, s.ovr, s.outTaken, rest, s.reads, rfl⟩
  · cases h; exact ⟨[], s.ovr, _, rest, s.reads, by simp; rfl⟩
  · cases h; exact ⟨[], s.ovr, _, hs, r, by simp; rfl⟩

end Sys2Proof.Machine
end

