-- ==== Sys2Proof/Laws/PerInstr.lean ====
section
/-! SUPPORT. What holds of every command as syntax, said command by command. -/

namespace Sys2Proof.Laws

/-- A command's word decodes to it alone, its bits 31:4 are zero (30_encoding R69), and the opcode in its low four bits
is not the 0xF that OP uses for ILLEGAL (10_state R18). -/
def RoundTrip.Statement (i : Instr) : Prop :=
  decode (encode i) = .legal i ∧ cmdReserved (encode i) = 0 ∧ cmdOp (encode i) = opcode i ∧ opcode i ≠ 0xF#4

theorem RoundTrip.nop : RoundTrip.Statement .nop := by unfold RoundTrip.Statement; decide
theorem RoundTrip.hdrParse : RoundTrip.Statement .hdrParse := by unfold RoundTrip.Statement; decide
theorem RoundTrip.hdrEmit : RoundTrip.Statement .hdrEmit := by unfold RoundTrip.Statement; decide
theorem RoundTrip.encode : RoundTrip.Statement .encode := by unfold RoundTrip.Statement; decide
theorem RoundTrip.decode : RoundTrip.Statement .decode := by unfold RoundTrip.Statement; decide

end Sys2Proof.Laws
end

