-- ==== Sys2Proof/Laws/Run.lean ====
section
/-! SUPPORT. Runs of several steps: how they begin and how they join, and the step of a machine whose block runs on by
itself. -/

namespace Sys2Proof.Safety

open Sys2Proof.Machine

theorem RunsTo.refl (s : State) : RunsTo s 0 s := rfl

/-- A run begins with its first step. -/
theorem RunsTo.cons {s u t : State} {k : Nat} (h : step s = .next u) (hr : RunsTo u k t) : RunsTo s (k + 1) t := by
  have e := Host.Core.run.eq_2 Sys2Proof.core s k
  have h' : Sys2Proof.core.step s = .next u := h
  simp only [h'] at e
  exact e.trans hr

/-- A run of at least one step has a first step. -/
theorem RunsTo.uncons {s t : State} {k : Nat} (h : RunsTo s (k + 1) t) : ∃ u, step s = .next u ∧ RunsTo u k t := by
  have e := (Host.Core.run.eq_2 Sys2Proof.core s k).symm.trans h
  rcases hs : Sys2Proof.core.step s with u | r | r
  · simp only [hs] at e
    exact ⟨u, hs, e⟩
  · cases r
  · simp [hs] at e

/-- Two runs join. -/
theorem RunsTo.trans {s u t : State} {j k : Nat} (h : RunsTo s j u) (hr : RunsTo u k t) : RunsTo s (j + k) t := by
  induction j generalizing s with
  | zero => cases h; simpa using hr
  | succ j ih =>
    obtain ⟨v, hv, h⟩ := h.uncons
    rw [Nat.add_right_comm]
    exact RunsTo.cons hv (ih h)

/-- Where no choice of turn is left and a block step is enabled, the step is the block's. -/
theorem step_of_ready {s : State} (hs : s.sched = []) (hr : blockReady s = true) : step s = blockStep s := by
  have ht : turn s = .block := by simp [turn, hs, hr]
  have hp : s.popTurn = s := by
    cases s
    cases hs
    rfl
  rcases step_cases s with ⟨-, e⟩ | ⟨h, -⟩ | ⟨st, rest, h, -⟩
  · rw [e, hp]
  · simp [ht] at h
  · simp [ht] at h

/-- A free block with a byte in `oq` drains it. -/
theorem step_drain {s : State} {b : Byte} {rest : List Byte} (hf : Free s) (hq : s.oq = b :: rest) :
    step s = .next (s.drain b rest) := by
  have hr : s.outRoom = true := by simp [State.outRoom, hasRoom, hf.2]
  rw [step_of_ready hf.1 (by simp [blockReady, hq, hr])]
  simp [blockStep, hq, hr]

/-- A free block with `oq` empty takes the command step that is enabled. -/
theorem step_command {s : State} (hf : Free s) (hb : s.busy = true) (hq : s.oq = []) (hr : opReady s = true) :
    step s = .next (opStep s) := by
  rw [step_of_ready hf.1 (by simp [blockReady, hq, hb, hr])]
  rcases blockStep_cases s with ⟨b, rest, h, -⟩ | ⟨h, -⟩ | ⟨-, h, -⟩ | ⟨-, -, e⟩
  · simp [hq] at h
  · exact absurd hq h
  · simp [hb] at h
  · exact e

end Sys2Proof.Safety
end

