-- ==== Sys2Proof/Laws/Values.lean ====
section
/-! SUPPORT. Words as numbers: the fields of a command word and the bytes of an assembled value; and what further tokens
add to the output a codec command owes. -/

namespace Sys2Proof

/-- Bits 31:4 of a command word as a number. -/
theorem cmdReserved_toNat (w : Word) : (cmdReserved w).toNat = w.toNat / 16 := by
  simp [cmdReserved, BitVec.extractLsb'_toNat, Nat.shiftRight_eq_div_pow]
  omega

/-- Bits 3:0 of a command word as a number. -/
theorem cmdOp_toNat (w : Word) : (cmdOp w).toNat = w.toNat % 16 := by
  simp [cmdOp, BitVec.extractLsb'_toNat]

namespace Machine

/-- Two bytes put together, the second in the low place. -/
theorem append2_toNat (a b : Byte) : (a ++ b : BitVec 16).toNat = b.toNat + 256 * a.toNat := by
  have := a.isLt; have := b.isLt
  simp only [BitVec.toNat_append]
  rw [← Nat.shiftLeft_add_eq_or_of_lt (by omega)]
  simp only [Nat.shiftLeft_eq]; omega

/-- Four bytes put together, the last in the low place. -/
theorem append4_toNat (a b c d : Byte) : (a ++ b ++ c ++ d : BitVec 32).toNat =
    d.toNat + 256 * c.toNat + 65536 * b.toNat + 16777216 * a.toNat := by
  have := a.isLt; have := b.isLt; have := c.isLt; have := d.isLt
  simp only [BitVec.toNat_append]
  rw [← Nat.shiftLeft_add_eq_or_of_lt (by omega), ← Nat.shiftLeft_add_eq_or_of_lt (by omega),
    ← Nat.shiftLeft_add_eq_or_of_lt (by omega)]
  simp only [Nat.shiftLeft_eq]; omega

end Machine

namespace Safety

open Machine

/-- More tokens only add to what an encoder owes. -/
theorem encOwed_append (p : Byte) (c : Nat) (ts us : List Token) : encOwed p c ts <+: encOwed p c (ts ++ us) := by
  induction ts generalizing p c with
  | nil => exact List.nil_prefix
  | cons k ts ih =>
    cases k with
    | endTok => exact List.prefix_rfl
    | byte x =>
      simp only [List.cons_append, encOwed]
      split
      · exact ih _ _
      · exact (List.prefix_append_right_inj _).mpr (ih _ _)

/-- More tokens only add to what a decoder owes. -/
theorem decOwed_append (ts us : List Token) : decOwed ts <+: decOwed (ts ++ us) := by
  induction ts using decOwed.induct with
  | case1 c v ts ih =>
    simp only [List.cons_append, decOwed]
    exact (List.prefix_append_right_inj _).mpr ih
  | case2 ts h =>
    rw [decOwed]
    · exact List.nil_prefix
    · exact h

end Safety

end Sys2Proof
end

