-- ==== Sys2Proof/Tests/Slice0.lean ====
section
/-! SUPPORT. Tests of single steps against the examples of the spec, the smoke tests of WellFormed, and for every
statement with hypotheses a witness that they can be met together. -/

namespace Sys2Proof.Tests

open Sys2Proof.Machine Sys2Proof.Safety

/-! Helpers. -/

/-- The state after reset, but for a command in progress. -/
def busyWith (i : Instr) : State := { State.reset with busy := true, op := .cmd i }

/-- "BM" as the first two bytes of `hbuf`. -/
def bm : Memory := [(0, 0x42#8), (1, 0x4D#8)]

/-- The header of R100's example: "BM" and 52 zeros. -/
def bmHeader : List Byte := 0x42#8 :: 0x4D#8 :: List.replicate 52 0#8

/-- The state a step answered with, or `s` itself where it stopped. -/
def after (r : Result) (s : State) : State :=
  match r with
  | .next t => t
  | .fault _ => s
  | .refused _ => s

/-! Well-formedness. -/

theorem test_wf_commands : [Instr.nop, .hdrParse, .hdrEmit, .encode, .decode].all Instr.wf = true := by decide
theorem test_wf_expect : (HostStmt.expect 0x04#8 7 4 15#32).wf = true := by decide
theorem test_illformed_field_reversed : (HostStmt.expect 0x04#8 4 7 0#32).wf = false := by decide
theorem test_illformed_field_too_high : (HostStmt.expect 0x04#8 32 4 0#32).wf = false := by decide
theorem test_illformed_value_too_big : (HostStmt.expect 0x04#8 7 4 16#32).wf = false := by decide

/-! Decoding: the words of 30_encoding R69 written out bit by bit, and those of 95_test_vectors C-3 to C-6. -/

theorem test_decode_nop : decode 0b00000000000000000000000000000000#32 = .legal .nop := by decide
theorem test_decode_hdrParse : decode 0b00000000000000000000000000000001#32 = .legal .hdrParse := by decide
theorem test_decode_hdrEmit : decode 0b00000000000000000000000000000010#32 = .legal .hdrEmit := by decide
theorem test_decode_encode : decode 0b00000000000000000000000000000011#32 = .legal .encode := by decide
theorem test_decode_decode : decode 0b00000000000000000000000000000100#32 = .legal .decode := by decide
theorem test_decode_reserved_bit : decode 0b00000000000000000000000000010011#32 = .illegal .reservedBits := by decide
theorem test_decode_top_bit : decode 0b10000000000000000000000000000011#32 = .illegal .reservedBits := by decide
theorem test_decode_five : decode 0b00000000000000000000000000000101#32 = .illegal .reservedOpcode := by decide
theorem test_encode_decode : encode .decode = 0x00000004#32 := by decide

/-! Single steps. -/

/-- R94's example: STATUS 0x00000012 becomes 0x00000002. -/
theorem test_nop_completes : (after (exec .nop (busyWith .nop)) State.reset).statusWord = 0x00000002#32 := by decide
/-- NOP takes no token (R94). -/
theorem test_nop_takes_no_token :
    (after (exec .nop { busyWith .nop with inq := [.endTok] }) State.reset).inq = [.endTok] := by decide
/-- R95's example: 0x00000013 ends with STATUS 0x00000062. -/
theorem test_illegal_word :
    (after (blockStep (after (writeCmd 0x00000013#32 State.reset) State.reset)) State.reset).statusWord =
      0x00000062#32 := by decide
/-- HP_BYTE at the last byte (R100). -/
theorem test_hdrParse_last_byte :
    let t := after (exec .hdrParse { busyWith .hdrParse with hIdx := 53, inq := [.byte 7, .byte 8] }) State.reset
    t.hbuf.read 53 = 7#8 ∧ t.hIdx = 54#6 ∧ t.inq = [.byte 8] ∧ t.inCount = 1#32 := by decide
/-- "BN" is NotABitmap: STATUS 0x00000012 (95_test_vectors L1 item 4). -/
theorem test_hdrParse_bad_signature :
    (after (exec .hdrParse { busyWith .hdrParse with hIdx := 54, hbuf := [(0, 0x42#8), (1, 0x4E#8)] })
      State.reset).statusWord = 0x00000012#32 := by decide
/-- HDR_EMIT without a header: STATUS 0x00000052 (95_test_vectors HE-3). -/
theorem test_hdrEmit_no_header :
    (after (exec .hdrEmit (busyWith .hdrEmit)) State.reset).statusWord = 0x00000052#32 := by decide
/-- HE_BYTE pushes `hbuf[H_IDX]` (R108). -/
theorem test_hdrEmit_byte :
    (after (exec .hdrEmit { busyWith .hdrEmit with hdrValid := true, hbuf := bm, hIdx := 1 }) State.reset).oq =
      [0x4D#8] := by decide
/-- EN_FLUSH of 95_test_vectors EN-3: 07 three times, then 09. -/
theorem test_encode_flush :
    let t := after (exec .encode { busyWith .encode with
      ePrev := 7, eCnt := 3, eHave := true, inCount := 3, inq := [.byte 9] }) State.reset
    t.oq = [3#8, 7#8] ∧ t.ePrev = 9#8 ∧ t.eCnt = 1#8 ∧ t.inCount = 4#32 := by decide
/-- The 256th equal byte flushes a full pair (95_test_vectors EN-7). -/
theorem test_encode_cap :
    let t := after (exec .encode { busyWith .encode with eCnt := 255, eHave := true, inq := [.byte 0] }) State.reset
    t.oq = [255#8, 0#8] ∧ t.eCnt = 1#8 := by decide
/-- DE_CNT of 95_test_vectors DE-2. -/
theorem test_decode_count :
    let t := after (exec .decode { busyWith .decode with inq := [.byte 3, .byte 0x41] }) State.reset
    t.dRem = 3#8 ∧ t.dPhase = .value ∧ t.inq = [.byte 0x41] ∧ t.inCount = 1#32 := by decide
/-- A lone count byte: STATUS 0x00000022 (95_test_vectors DE-5). -/
theorem test_decode_truncated :
    (after (exec .decode { busyWith .decode with dPhase := .value, dRem := 5, inq := [.endTok] })
      State.reset).statusWord = 0x00000022#32 := by decide
/-- The word placed for the next step runs as the first command after reset (log entry 3). -/
theorem test_placed_word :
    after (step (State.reset.withFetchWord 32 0x4)) State.reset =
      { State.reset with busy := true, op := .cmd .decode } := by decide
/-- A dropped CMD write: STATUS 0x00000009 (95_test_vectors HZ-2). -/
theorem test_overrun :
    (after (writeCmd 0x00000004#32 (busyWith .encode)) State.reset).statusWord = 0x00000009#32 := by decide
/-- The field views of 95_test_vectors HP-10 on the bytes that differ from zero there. -/
theorem test_views_signed :
    let s := { State.reset with hbuf := [(18, 255#8), (19, 255#8), (20, 255#8), (21, 255#8), (26, 255#8), (27, 255#8),
      (29, 0x80#8)] }
    s.regRead 0x24#8 = 0xFFFFFFFF#32 ∧ s.regRead 0x2C#8 = 0xFFFFFFFF#32 ∧ s.regRead 0x30#8 = 0xFFFF8000#32 := by decide
/-- H_SIGNATURE of header H1 (95_test_vectors L1), with both low offset bits set. -/
theorem test_view_signature : ({ State.reset with hbuf := bm } : State).regRead 0x13#8 = 0x00004D42#32 := by decide
/-- SEG of 300 bytes AA: FF AA 2D AA (95_test_vectors L1 item 2). -/
theorem test_segment : seg 0xAA#8 300 = [0xFF#8, 0xAA#8, 0x2D#8, 0xAA#8] := by decide
/-- The beats of `push` (95_test_vectors L3). -/
theorem test_beats : Token.beat (.byte 0x42#8) = 0x042#9 ∧ Token.beat .endTok = 0x100#9 := by decide
/-- The statements `compress` gives start with the command word of HDR_PARSE (30_encoding R80). -/
theorem test_compress_head : (compress bmHeader [1#8]).head? = some (.wr 0x00#8 0x00000001#32) := by decide

/-! Witnesses: the hypotheses of each statement, met together. -/

/-- An ENCODE about to take its second byte. -/
def encoding : State := { busyWith .encode with ePrev := 7, eCnt := 254, eHave := true, inq := [.byte 7, .endTok] }

/-- A HDR_EMIT with a valid header, all bytes still to come. -/
def emitting : State := { busyWith .hdrEmit with hdrValid := true, hbuf := bm }

/-- An idle block whose header is valid and which has no room in its OUT FIFO. -/
def stalled : State := { busyWith .decode with oq := [1#8], out := [9#8], outDepth := .finite 0 }

theorem inv_idle (t : Token) (ts : List Token) : MachineInv { State.reset with inq := t :: ts } := by
  constructor <;> first | trivial | exact ⟨.nil, by simp [State.reset]⟩ | simp [State.reset]
theorem inv_valid : MachineInv { State.reset with hbuf := bm, hdrValid := true } := by
  constructor <;> first | decide | trivial
theorem inv_encoding : MachineInv encoding := by constructor <;> first | decide | trivial
theorem inv_emitting : MachineInv emitting := by constructor <;> first | decide | trivial
theorem inv_stalled : MachineInv stalled := by constructor <;> first | decide | (simp [fits, stalled, busyWith, State.reset])

theorem witness_DecodeEveryWord :
    16 ≤ (0x00000010#32).toNat ∧ 16 ≤ (0xFFFFFFFF#32).toNat ∧
    (5 ≤ (0x00000005#32).toNat ∧ (0x00000005#32).toNat ≤ 15) ∧ (5 ≤ (0x0000000F#32).toNat ∧ (0x0000000F#32).toNat ≤ 15) ∧
    decode 0x00000010#32 = .illegal .reservedBits ∧ decode 0x00000005#32 = .illegal .reservedOpcode ∧
    decode 0x0000000F#32 = .illegal .reservedOpcode := by decide

theorem witness_StepTakesTheTurn :
    turn (busyWith .nop) = .block ∧ (turn State.reset = .host ∧ State.reset.host = []) ∧
    (let s := { State.reset with host := [.take] }; turn s = .host ∧ s.host = .take :: []) ∧
    ({ busyWith .nop with sched := [.host] } : State).sched = .host :: [] ∧
    turn { busyWith .nop with sched := [.host] } = .host := by decide

theorem witness_StepRunsWrittenCommand :
    let s := { State.reset with host := [.wr 0x03#8 0x00000004#32] }
    turn s = .host ∧ s.host = .wr 0x03#8 0x00000004#32 :: [] ∧ (0x03#8).toNat < 4 ∧ s.busy = false ∧
      decode 0x00000004#32 = .legal .decode := by decide

theorem witness_StepRunsCommandInProgress :
    turn encoding = .block ∧ encoding.busy = true ∧ encoding.op = .cmd .encode ∧ encoding.oq = [] := by decide

theorem witness_PlacedWordRunsNext :
    decodeTableWord 32 4 = some .decode ∧ decodeTableWord 32 0 = some .nop ∧ decodeTableWord 32 5 = none := by decide

theorem witness_CommandWaitsUnchanged :
    ((busyWith .nop).busy = true ∧ (busyWith .nop).op ≠ .cmd .encode) ∧ (stalled.busy = true ∧ stalled.oq ≠ []) ∧
    (let s := { busyWith .hdrParse with hIdx := 53 }; s.busy = true ∧ s.hIdx.toNat < 54 ∧ s.inq = []) ∧
    (let s := busyWith .encode; s.busy = true ∧ s.eFin = false ∧ s.inq = []) ∧
    (let s := busyWith .decode; s.busy = true ∧ s.dPhase ≠ .emit ∧ s.inq = []) := by decide

theorem witness_DrainStepDelivers :
    (let s := { busyWith .encode with oq := [1#8, 2#8] }; s.oq = 1#8 :: [2#8] ∧ s.outRoom = true) ∧
    (stalled.oq ≠ [] ∧ stalled.outRoom = false) := by decide
theorem witness_DrainStepDelivers_inv : MachineInv stalled ∧ stalled.oq ≠ [] := ⟨inv_stalled, by decide⟩

theorem witness_BusyWriteDropped : encoding.busy = true ∧ (0x03#8 : RegAddr).toNat < 4 := by decide

theorem witness_AcceptanceInitialises :
    State.reset.busy = false ∧ 5 ≤ (0x00000005#32).toNat ∧ decode 0x00000004#32 = .legal .decode := by decide

theorem witness_PushCommutesWithWrite : ∃ t, writeCmd 0x00000003#32 State.reset = .next t := ⟨_, rfl⟩

theorem witness_NopCompletes_step :
    let s := { busyWith .nop with ovr := true, inq := [.endTok] }
    s.busy = true ∧ s.op = .cmd .nop ∧ s.oq = [] := by decide

theorem witness_NopCompletes :
    let s := { State.reset with inq := [.endTok], done := true, err := .notABitmap }
    s.busy = false ∧ s.oq = [] ∧ s.statusWord = 0x00000012#32 := by decide

theorem witness_IllegalWordFails_step :
    let s := { State.reset with busy := true, op := .illegal, ovr := true }
    s.busy = true ∧ s.op.code = 0xF#4 ∧ s.oq = [] := by decide

theorem witness_IllegalWordFails :
    5 ≤ (0x00000005#32).toNat ∧ 5 ≤ (0xFFFFFFFF#32).toNat ∧ (State.reset.busy = false ∧ State.reset.oq = []) ∧
      encoding.busy = true := by decide

theorem witness_HdrParseStepRules :
    State.reset.busy = false ∧
    (let s := { busyWith .hdrParse with hIdx := 53 }; s.busy = true ∧ s.hIdx.toNat < 54 ∧ s.inq = []) ∧
    (let s := { busyWith .hdrParse with hIdx := 53, hbuf := bm, inq := [.byte 1] }
     s.busy = true ∧ s.op = .cmd .hdrParse ∧ s.oq = [] ∧ Memory.wf s.hbuf ∧ s.hIdx.toNat < 54 ∧ s.inq = .byte 1 :: []) ∧
    (let s := { busyWith .hdrParse with hIdx := 53, inq := [.endTok] }
     s.busy = true ∧ s.op = .cmd .hdrParse ∧ s.oq = [] ∧ s.hIdx.toNat < 54 ∧ s.inq = .endTok :: []) ∧
    (let s := { busyWith .hdrParse with hIdx := 54, hbuf := bm }
     s.hIdx.toNat = 54 ∧ s.hbuf.read 0 = 0x42#8 ∧ s.hbuf.read 1 = 0x4D#8) ∧
    (let s := { busyWith .hdrParse with hIdx := 54, hbuf := [(0, 0x42#8), (1, 0x4E#8)] }
     s.hIdx.toNat = 54 ∧ ¬(s.hbuf.read 0 = 0x42#8 ∧ s.hbuf.read 1 = 0x4D#8)) := by decide

theorem witness_HdrEmitStepRules :
    ((busyWith .hdrEmit).busy = true ∧ (busyWith .hdrEmit).op = .cmd .hdrEmit ∧ (busyWith .hdrEmit).oq = [] ∧
      (busyWith .hdrEmit).hdrValid = false) ∧
    (let s := { emitting with hIdx := 53 }
     s.busy = true ∧ s.op = .cmd .hdrEmit ∧ s.oq = [] ∧ s.hdrValid = true ∧ s.hIdx.toNat < 54) ∧
    (let s := { emitting with hIdx := 54 }; s.hdrValid = true ∧ s.hIdx.toNat = 54) ∧
    (let s := { emitting with oq := [1#8] }; s.busy = true ∧ s.oq ≠ []) := by decide

theorem witness_HdrParseWholeHeader :
    let s := { State.reset with inq := tokens bmHeader ++ [.endTok] }
    MachineInv s ∧ Free s ∧ s.busy = false ∧ bmHeader.length = 54 ∧ s.inq = tokens bmHeader ++ [.endTok] :=
  ⟨inv_idle _ _, ⟨rfl, rfl⟩, rfl, by decide, rfl⟩

theorem witness_HdrParseTruncated :
    let s := { State.reset with inq := tokens (bmHeader.take 53) ++ .endTok :: [] }
    MachineInv s ∧ Free s ∧ s.busy = false ∧ (bmHeader.take 53).length < 54 ∧ ([] : List Byte).length < 54 ∧
      s.inq = tokens (bmHeader.take 53) ++ .endTok :: [] :=
  ⟨inv_idle _ _, ⟨rfl, rfl⟩, rfl, by decide, by decide, rfl⟩

theorem witness_HeaderOutputGated :
    (∃ t, exec .hdrParse { busyWith .hdrParse with inq := [.byte 1] } = .next t) ∧
    (∃ t, exec .hdrEmit (busyWith .hdrEmit) = .next t) ∧ (busyWith .hdrEmit).hdrValid = false :=
  ⟨⟨_, rfl⟩, ⟨_, rfl⟩, rfl⟩

theorem witness_HdrEmitWholeHeader :
    let s := { State.reset with hbuf := bm, hdrValid := true }
    MachineInv s ∧ Free s ∧ s.busy = false ∧ s.hdrValid = true := ⟨inv_valid, ⟨rfl, rfl⟩, rfl, rfl⟩

theorem witness_HdrEmitNeedsHeader :
    State.reset.busy = false ∧ State.reset.oq = [] ∧ State.reset.hdrValid = false := by decide

theorem witness_HeaderPassthrough :
    let s := { State.reset with inq := tokens bmHeader ++ [.byte 5] }
    MachineInv s ∧ Free s ∧ s.busy = false ∧ bmHeader.length = 54 ∧ bmHeader.take 2 = [0x42#8, 0x4D#8] ∧
      s.inq = tokens bmHeader ++ [.byte 5] :=
  ⟨inv_idle _ _, ⟨rfl, rfl⟩, rfl, by decide, by decide, rfl⟩

theorem witness_HdrValidLife :
    (let s := { busyWith .hdrParse with hIdx := 54, hbuf := bm }
     s.hdrValid = false ∧ ∃ t, step s = .next t ∧ t.hdrValid = true) ∧
    (let s := { State.reset with hdrValid := true, hbuf := bm, host := [.wr 0x00#8 0x00000001#32] }
     s.hdrValid = true ∧ ∃ t, step s = .next t ∧ t.hdrValid = false) ∧
    (let s := { State.reset with hdrValid := true, hbuf := bm, host := [.reset] }
     s.hdrValid = true ∧ ∃ t, step s = .next t ∧ t.hdrValid = false) :=
  ⟨⟨rfl, _, rfl, rfl⟩, ⟨rfl, _, rfl, rfl⟩, ⟨rfl, _, rfl, rfl⟩⟩

theorem witness_EncodeStepRules :
    (let s := { busyWith .encode with inq := [.byte 1] }
     s.busy = true ∧ s.op = .cmd .encode ∧ s.oq = [] ∧ (s.eFin = true → s.eHave = true) ∧ s.eHave = false ∧
       s.inq = .byte 1 :: []) ∧
    (let s := { busyWith .encode with inq := [.endTok] }; s.eHave = false ∧ s.inq = .endTok :: []) ∧
    (encoding.busy = true ∧ encoding.op = .cmd .encode ∧ encoding.oq = [] ∧ (encoding.eFin = true → encoding.eHave = true) ∧
      encoding.eHave = true ∧ encoding.eFin = false ∧ encoding.inq = .byte encoding.ePrev :: [.endTok] ∧
      encoding.eCnt.toNat < 255) ∧
    (let s := { encoding with eCnt := 255 }
     s.eHave = true ∧ s.eFin = false ∧ s.inq = .byte 7 :: [.endTok] ∧ (7#8 ≠ s.ePrev ∨ s.eCnt = 255#8)) ∧
    (let s := { encoding with inq := [.byte 8] }
     s.eHave = true ∧ s.eFin = false ∧ s.inq = .byte 8 :: [] ∧ (8#8 ≠ s.ePrev ∨ s.eCnt = 255#8)) ∧
    (let s := { encoding with inq := [.endTok] }; s.eHave = true ∧ s.eFin = false ∧ s.inq = .endTok :: []) ∧
    (let s := { encoding with eFin := true }; s.eFin = true ∧ s.eHave = true ∧ s.oq = []) := by decide

theorem witness_EncoderCountsInRange :
    MachineInv encoding ∧ encoding.busy = true ∧ ∃ t, exec .encode encoding = .next t := ⟨inv_encoding, rfl, _, rfl⟩

theorem witness_EncodeAgreesWithReference :
    let s := { State.reset with inq := tokens [42#8] ++ .endTok :: [.byte 1] }
    Free s ∧ s.busy = false ∧ s.oq = [] ∧ s.inq = tokens [42#8] ++ .endTok :: [.byte 1] ∧
      ({ State.reset with inq := [.endTok] } : State).inq = tokens [] ++ .endTok :: [] :=
  ⟨⟨rfl, rfl⟩, rfl, rfl, rfl, rfl⟩

theorem witness_EncodePromiseKept :
    MachineInv encoding ∧ encoding.busy = true ∧ encoding.op = .cmd .encode ∧ (∃ t, step encoding = .next t) ∧
      (turn encoding = .host → ∀ rest, encoding.host ≠ .reset :: rest) ∧
      (let s := { encoding with sched := [.host], host := [.push 0x009#9] }
       turn s = .host ∧ ∀ rest, s.host ≠ .reset :: rest) :=
  ⟨inv_encoding, rfl, rfl, ⟨_, rfl⟩, fun h => absurd h (by decide), rfl, fun _ h => by cases h⟩

theorem witness_EncodeSegmentForm :
    let runs : List (Byte × Nat) := [(1#8, 256), (2#8, 1)]
    runs ≠ [] ∧ (∀ r ∈ runs, 1 ≤ r.2) ∧ runs.IsChain (fun a b => a.1 ≠ b.1) := by
  refine ⟨by decide, by decide, ?_⟩
  simp

theorem witness_EncodeOutputSize : [42#8] ≠ ([] : List Byte) := by decide
theorem witness_EncodeOutputSize_runs :
    let runs : List (Byte × Nat) := [(1#8, 255), (2#8, 256)]
    let buf := runs.flatMap (fun r => List.replicate r.2 r.1)
    buf ≠ [] ∧ (∀ r ∈ runs, 1 ≤ r.2) ∧ runs.IsChain (fun a b => a.1 ≠ b.1) := by
  exact ⟨List.append_ne_nil_of_left_ne_nil (by decide) _, by decide, by simp⟩

theorem witness_DecodeStepRules :
    (let s := { busyWith .decode with inq := [.byte 0] }
     s.busy = true ∧ s.op = .cmd .decode ∧ s.oq = [] ∧ s.dPhase = .count ∧ s.inq = .byte 0 :: []) ∧
    (let s := { busyWith .decode with inq := [.endTok] }; s.dPhase = .count ∧ s.inq = .endTok :: []) ∧
    (let s := { busyWith .decode with dPhase := .value, inq := [.byte 9] }; s.dPhase = .value ∧ s.inq = .byte 9 :: []) ∧
    (let s := { busyWith .decode with dPhase := .value, inq := [.endTok] }; s.dPhase = .value ∧ s.inq = .endTok :: []) ∧
    (let s := { busyWith .decode with dPhase := .emit, dRem := 1 }; s.dPhase = .emit ∧ s.dRem ≠ 0) ∧
    (let s := { busyWith .decode with dPhase := .emit }; s.dPhase = .emit ∧ s.dRem = 0) := by decide

theorem witness_DecodeAgreesWithReference :
    let s := { State.reset with inq := tokens [3#8, 65#8, 5#8] ++ .endTok :: [] }
    Free s ∧ s.busy = false ∧ s.oq = [] ∧ s.inq = tokens [3#8, 65#8, 5#8] ++ .endTok :: [] :=
  ⟨⟨rfl, rfl⟩, rfl, rfl, rfl⟩

theorem witness_DecodePromiseKept :
    let s := { busyWith .decode with dPhase := .emit, dRem := 1 }
    s.busy = true ∧ s.op = .cmd .decode ∧ (∃ t, step s = .next t) ∧ turn s = .block ∧
      (turn s = .host → ∀ rest, s.host ≠ .reset :: rest) :=
  ⟨rfl, rfl, ⟨_, rfl⟩, rfl, fun h => absurd h (by decide)⟩

theorem witness_DecodeInvertsEncode : List.replicate 256 7#8 ≠ ([] : List Byte) := by decide

theorem witness_InvariantKept : MachineInv encoding ∧ ∃ t, step encoding = .next t := ⟨inv_encoding, _, rfl⟩

theorem witness_CommandInProgressCompletes :
    (MachineInv encoding ∧ Free encoding ∧ encoding.busy = true ∧ Supplied encoding) ∧
    (MachineInv emitting ∧ Free emitting ∧ emitting.busy = true ∧ Supplied emitting) ∧
    (let s := { busyWith .hdrParse with hIdx := 53, inq := [.byte 1] }
     MachineInv s ∧ Free s ∧ s.busy = true ∧ Supplied s) ∧
    (let s := { busyWith .decode with inq := [.endTok] }; MachineInv s ∧ Free s ∧ s.busy = true ∧ Supplied s) := by
  refine ⟨⟨inv_encoding, ⟨rfl, rfl⟩, rfl, .inr ?_⟩, ⟨inv_emitting, ⟨rfl, rfl⟩, rfl, trivial⟩,
    ⟨?_, ⟨rfl, rfl⟩, rfl, .inr ?_⟩, ⟨?_, ⟨rfl, rfl⟩, rfl, ?_⟩⟩
  · decide
  · constructor <;> first | decide | trivial
  · decide
  · constructor <;> first | decide | trivial
  · show Token.endTok ∈ [Token.endTok]
    decide

theorem witness_BlockStepFrame :
    (∃ t, blockStep encoding = .next t) ∧ encoding.op ≠ .cmd .hdrParse ∧ encoding.op ≠ .cmd .hdrEmit ∧
      encoding.op ≠ .cmd .decode ∧ emitting.op ≠ .cmd .encode ∧ ∃ t, blockStep emitting = .next t :=
  ⟨⟨_, rfl⟩, by decide, by decide, by decide, by decide, _, rfl⟩

theorem witness_CodecIgnoresHeader :
    Instr.encode = .nop ∨ Instr.encode = .encode ∨ Instr.encode = .decode := .inr (.inl rfl)

theorem witness_DepthsOnlyDelay :
    (∃ t, blockStep { stalled with inDepth := .unbounded, outDepth := .unbounded } = .next t) ∧
      stalled.oq ≠ [] ∧ stalled.outRoom = false := ⟨⟨_, rfl⟩, by decide, by decide⟩

theorem witness_OutOnlyGrows : ∃ t, step { encoding with oq := [1#8] } = .next t ∧ t.out = [1#8] := ⟨_, rfl, rfl⟩

theorem witness_TokensTakenInOrder :
    (∃ t, blockStep encoding = .next t ∧ t.inCount = 1) ∧ (∃ t, blockStep emitting = .next t) ∧
      emitting.op = .cmd .hdrEmit := ⟨⟨_, rfl, rfl⟩, ⟨_, rfl⟩, rfl⟩

theorem witness_CompletionIsPrecise :
    (∃ t, (busyWith .nop).busy = true ∧ exec .nop (busyWith .nop) = .next t ∧ t.busy = false) ∧
    (let s := { busyWith .decode with dPhase := .value, inq := [.endTok] }
     ∃ t, s.busy = true ∧ exec .decode s = .next t ∧ t.busy = false ∧ t.err = .truncatedStream) :=
  ⟨⟨_, rfl, rfl, rfl⟩, ⟨_, rfl, rfl, rfl, rfl⟩⟩

theorem witness_StatusLayout : MachineInv encoding ∧ encoding.busy = true := ⟨inv_encoding, rfl⟩

/-- One completing block step for each error kind: the cause of the kind, and the ERR it leaves. -/
theorem witness_ErrorTable :
    let ends := fun (s : State) (e : Err) => s.busy = true ∧ (after (blockStep s) s).busy = false ∧
      (after (blockStep s) s).err = e
    ends (busyWith .nop) .none ∧ ends { busyWith .hdrParse with hIdx := 54 } .notABitmap ∧
    ends { busyWith .decode with dPhase := .value, inq := [.endTok] } .truncatedStream ∧
    ends { busyWith .encode with inq := [.endTok] } .emptyBuffer ∧
    ends { busyWith .hdrParse with hIdx := 53, inq := [.endTok] } .truncatedHeader ∧
    ends (busyWith .hdrEmit) .noHeader ∧ ends { State.reset with busy := true, op := .illegal } .illegalCommand := by
  decide
theorem witness_ErrorTable_next : ∃ t, blockStep (busyWith .nop) = .next t := ⟨_, rfl⟩

theorem witness_RegisterAccess :
    (0x03#8 : RegAddr).toNat < 4 ∧ (0x4C ≤ (0x4C#8 : RegAddr).toNat ∧ (0x4C#8 : RegAddr).toNat ≤ 0x7F) ∧
    (0x4C ≤ (0x7F#8 : RegAddr).toNat ∧ (0x7F#8 : RegAddr).toNat ≤ 0x7F) ∧ 0xB8 ≤ (0xB8#8 : RegAddr).toNat ∧
    0xB8 ≤ (0xFF#8 : RegAddr).toNat ∧ 4 ≤ (0x04#8 : RegAddr).toNat ∧
    ({ State.reset with inCount := 5 } : State).regRead 0x0B#8 = 5 := by decide

theorem witness_RawWordsShowHeader :
    12 ≤ 12 ∧ 3 < 4 ∧ (({ State.reset with hbuf := [(51, 7#8), (53, 9#8)] } : State).regRead 0xB0#8) = 0x07000000#32 ∧
      (({ State.reset with hbuf := [(51, 7#8), (53, 9#8)] } : State).regRead 0xB4#8) = 0x00000900#32 := by decide

theorem witness_PushedBeatJoinsQueue :
    (State.reset.inRoom = true ∧ (0x1FF#9 : Beat).getLsbD 8 = true) ∧ (0x0FF#9 : Beat).getLsbD 8 = false ∧
    ({ State.reset with inDepth := .finite 0, inq := [.endTok] } : State).inRoom = false := by decide

theorem witness_HostWaitsTakesAndChecks :
    (let s := { State.reset with out := [1#8] }; s.outTaken < s.out.length) ∧
    State.reset.out.length ≤ State.reset.outTaken ∧ (0 ≤ 31 ∧ 31 ≤ 31) ∧
    ((State.reset.regRead 0x04#8).toNat / 2 ^ 4 % 2 ^ (7 + 1 - 4) = (0#32).toNat) ∧
    ((State.reset.regRead 0x04#8).toNat / 2 ^ 4 % 2 ^ (7 + 1 - 4) ≠ (1#32).toNat) := by decide

end Sys2Proof.Tests
end

section
/-! PROOFS of the scope family. Whose turn it is, and what the step then is: one equation per turn, each read off
`step_cases`. -/

namespace Sys2Proof.Machine

/-- A choice that `sched` holds is the turn (log entry 2). -/
theorem turn_of_sched_cons {s : State} {a : Agent} {later : List Agent} (h : s.sched = a :: later) : turn s = a := by
  simp [turn, h]

/-- Where `sched` holds no choice, the block goes first while a block step is enabled (log entry 2). -/
theorem turn_of_sched_nil {s : State} (h : s.sched = []) : turn s = if blockReady s then .block else .host := by
  simp [turn, h]

/-- 00_scope R13, at the block's turn. -/
theorem step_of_turn_block {s : State} (ht : turn s = .block) : step s = blockStep s.popTurn := by
  rcases step_cases s with ⟨-, e⟩ | ⟨h, -⟩ | ⟨st, rest, h, -⟩
  · exact e
  · simp [ht] at h
  · simp [ht] at h

/-- 00_scope R13, at the host's turn where its program is over. -/
theorem step_of_turn_host_nil {s : State} (ht : turn s = .host) (hh : s.host = []) : step s = .next s.popTurn := by
  rcases step_cases s with ⟨h, -⟩ | ⟨-, -, e⟩ | ⟨st, rest, -, h, -⟩
  · simp [ht] at h
  · exact e
  · simp [hh] at h

/-- 00_scope R13, at the host's turn where it has a statement left. -/
theorem step_of_turn_host_cons {s : State} {st : HostStmt} {rest : List HostStmt} (ht : turn s = .host)
    (hh : s.host = st :: rest) : step s = hostStmt st rest s.popTurn := by
  rcases step_cases s with ⟨h, -⟩ | ⟨-, h, -⟩ | ⟨st', rest', -, h, e⟩
  · simp [ht] at h
  · simp [hh] at h
  · obtain ⟨rfl, rfl⟩ := List.cons.inj (hh.symm.trans h)
    exact e

/-- Settles O4: the three equations of `step` by turn, then the two of `turn` by `sched`. -/
theorem stepTakesTheTurn : Obligations.StepTakesTheTurn := fun _ =>
  ⟨step_of_turn_block, step_of_turn_host_nil, fun _ _ => step_of_turn_host_cons, fun _ _ => turn_of_sched_cons,
    turn_of_sched_nil⟩

end Sys2Proof.Machine
end

section
/-! PROOFS of the state family. First the invariant: each update of the state keeps it, so each unit's command step does,
the block's step and the host's. Then what a step does to `out`, `inq` and IN_COUNT; the registers after a reset; and
STATUS bit by bit. -/

namespace Sys2Proof.Safety

open Sys2Proof.Machine

/-! FIFO fill. -/

/-- A FIFO that holds `n` entries can hold fewer. -/
theorem fits_mono {d : Config.FifoDepth} {m n : Nat} (h : fits d n) (hmn : m ≤ n) : fits d m := by
  cases d with
  | unbounded => trivial
  | finite extra => exact hmn.trans h

/-- A FIFO with room can hold one entry more. -/
theorem fits_succ {d : Config.FifoDepth} {n : Nat} (h : hasRoom d n = true) : fits d (n + 1) := by
  cases d with
  | unbounded => trivial
  | finite extra => simpa [hasRoom, fits] using h

namespace MachineInv

variable {s t : State}

/-! The updates of the state. -/

/-- The invariant says nothing of the host's program, the choices of turn, the reads or OVR. -/
theorem hostSide (h : MachineInv s) (hs : List HostStmt) (sc : List Agent) (r : List (RegAddr × Word)) (o : Bool) :
    MachineInv { s with host := hs, sched := sc, reads := r, ovr := o } := { h with }

/-- The invariant says nothing of the decoder's registers. -/
theorem decoderRegs (h : MachineInv s) (p : Phase) (r v : Byte) :
    MachineInv { s with dPhase := p, dRem := r, dVal := v } := { h with }

/-- A taken token leaves `inq` no longer than it was. -/
theorem takeToken (h : MachineInv s) {k : Token} {rest : List Token} (hq : s.inq = k :: rest) (n : Word) :
    MachineInv { s with inq := rest, inCount := n } :=
  { h with inFits := fits_mono h.inFits (by simp [hq]) }

/-- A token is pushed only where the IN FIFO has room for it (20_memory R40). -/
theorem pushToken (h : MachineInv s) (hr : s.inRoom = true) (k : Token) :
    MachineInv { s with inq := s.inq ++ [k] } :=
  { h with inFits := by simpa using fits_succ hr }

/-- The host takes a byte that has been delivered. -/
theorem takeOut (h : MachineInv s) (ht : s.outTaken < s.out.length) :
    MachineInv { s with outTaken := s.outTaken + 1 } :=
  { h with
    takenDelivered := ht
    outFits := fits_mono h.outFits (Nat.sub_le_sub_left (Nat.le_succ _) _) }

/-- The drain step (40_control R92). -/
theorem drain (h : MachineInv s) {b : Byte} {rest : List Byte} (hq : s.oq = b :: rest) (hr : s.outRoom = true) :
    MachineInv (s.drain b rest) :=
  have two := h.oqTwo
  have counted := h.outCounted
  have taken := h.takenDelivered
  { h with
    idleDrained := fun hb => by simp [h.idleDrained hb] at hq
    oqTwo := by simp [hq] at two ⊢; omega
    oqPair := fun hl => by simp [hq] at two hl; omega
    oqOwner := fun _ => h.oqOwner (by simp [hq])
    outCounted := by simp [BitVec.toNat_add]; omega
    takenDelivered := by simp; omega
    outFits := fits_mono (fits_succ hr) (by simp; omega) }

/-- Completion, with or without an error, of a command that has nothing left to deliver (40_control R90). -/
theorem complete (h : MachineInv s) (hq : s.oq = []) (e : Err) : MachineInv (s.complete e) :=
  { h with
    busyNotDone := nofun
    errOnlyDone := nofun
    idleDrained := fun _ => hq
    parsingInvalid := nofun }

/-- Acceptance by an idle block (40_control R88); HDR_PARSE asks for a header that is not valid. -/
theorem accept (h : MachineInv s) (hb : s.busy = false) (o : Op) (ho : o = .cmd .hdrParse → s.hdrValid = false) :
    MachineInv (s.accept o) :=
  have hq : s.oq = [] := h.idleDrained hb
  { h with
    busyNotDone := fun _ => rfl
    errOnlyDone := fun _ => rfl
    idleDrained := fun _ => hq
    oqPair := fun hl => by simp [hq] at hl
    oqOwner := fun hne => absurd hq hne
    parsingInvalid := fun _ => ho
    outCounted := Nat.zero_le _ }

/-- H_IDX may be cleared, and HDR_VALID with it. -/
theorem clearHeader (h : MachineInv s) {v : Bool} (hv : v = true → s.hdrValid = true) :
    MachineInv { s with hdrValid := v, hIdx := 0 } :=
  { h with
    hIdxRange := Nat.zero_le _
    parsingInvalid := fun hb ho =>
      Bool.eq_false_iff.mpr fun hv' => Bool.eq_false_iff.mp (h.parsingInvalid hb ho) (hv hv')
    validSigned := fun hv' => h.validSigned (hv hv') }

/-- The encoder may forget its run. -/
theorem clearRun (h : MachineInv s) : MachineInv { s with eHave := false, eFin := false } :=
  { h with
    runCounted := nofun
    finHave := nofun }

/-- The encoder's held run has at least one byte (10_state R16), and E_HAVE is not cleared under it. -/
theorem holdRun (h : MachineInv s) (p : Byte) {c : Byte} (hc : c ≠ 0) {v : Bool} (hv : s.eHave = true → v = true) :
    MachineInv { s with ePrev := p, eCnt := c, eHave := v } :=
  { h with
    runCounted := fun _ => hc
    finHave := fun hf => hv (h.finHave hf) }

/-- The encoder queues a pair (10_state R31). -/
theorem queuePair (h : MachineInv s) (hb : s.busy = true) (ho : s.op = .cmd .encode) (hq : s.oq = []) (c v : Byte) :
    MachineInv { s with oq := s.oq ++ [c, v] } :=
  { h with
    idleDrained := fun hi => by simp [hb] at hi
    oqTwo := by simp [hq]
    oqPair := fun _ => ho
    oqOwner := fun _ => .inr (.inl ho) }

/-- A producing command queues one byte (40_control R82). -/
theorem queueByte (h : MachineInv s) (hb : s.busy = true) (ho : s.op = .cmd .hdrEmit ∨ s.op = .cmd .decode)
    (hq : s.oq = []) (b : Byte) : MachineInv { s with oq := s.oq ++ [b] } :=
  { h with
    idleDrained := fun hi => by simp [hb] at hi
    oqTwo := by simp [hq]
    oqPair := fun hl => by simp [hq] at hl
    oqOwner := fun _ => ho.imp_right .inr }

/-- H_IDX moves on to the next of the 54 bytes (10_state R15). -/
theorem advanceHIdx (h : MachineInv s) (hi : s.hIdx.toNat < 54) : MachineInv { s with hIdx := s.hIdx + 1 } :=
  { h with hIdxRange := by simp [BitVec.toNat_add]; omega }

/-- HDR_PARSE stores a byte below 54, the header not being valid meanwhile (10_state R22). -/
theorem storeByte (h : MachineInv s) (hv : s.hdrValid = false) {a : Nat} (ha : a < 54) (b : Byte) :
    MachineInv { s with hbuf := s.hbuf.write a b } :=
  { h with
    hbufWf := Memory.write_wf h.hbufWf ha
    validSigned := fun hv' => by simp [hv] at hv' }

/-- A header with the signature may be marked valid once no command is in progress (41_header R105). -/
theorem markValid (h : MachineInv s) (hb : s.busy = false) (hs : s.hbuf.signatureValid = true) :
    MachineInv { s with hdrValid := true } :=
  { h with
    parsingInvalid := fun hb' => by simp [hb] at hb'
    validSigned := fun _ => hs }

/-- The state right after power-on (10_state R35). -/
theorem reset : MachineInv State.reset where
  hbufWf := Memory.reset_wf
  hIdxRange := Nat.zero_le _
  busyNotDone := nofun
  errOnlyDone := fun _ => rfl
  idleDrained := fun _ => rfl
  oqTwo := Nat.zero_le _
  oqPair := nofun
  oqOwner := fun hne => absurd rfl hne
  parsingInvalid := nofun
  validSigned := nofun
  runCounted := nofun
  finHave := nofun
  outCounted := Nat.zero_le _
  takenDelivered := Nat.zero_le _
  inFits := trivial
  outFits := trivial

/-- A reset by the host keeps the delivered bytes, those taken and the FIFO depths (10_state R35). -/
theorem applyReset (h : MachineInv s) : MachineInv s.applyReset :=
  { reset with
    outCounted := Nat.zero_le _
    takenDelivered := h.takenDelivered
    inFits := fits_mono h.inFits (Nat.zero_le _)
    outFits := h.outFits }

/-! The units' command steps. -/

theorem hdrParseStep (h : MachineInv s) (hb : s.busy = true) (ho : s.op = .cmd .hdrParse) (hq : s.oq = []) :
    MachineInv (hdrParseStep s) := by
  have hv : s.hdrValid = false := h.parsingInvalid hb ho
  rcases hdrParseStep_cases s with ⟨b, r, hi, hk, e⟩ | ⟨r, -, hk, e⟩ | ⟨-, hs, e⟩ | ⟨-, -, e⟩ | ⟨e, -⟩ <;> rw [e]
  · exact ((h.takeToken hk _).advanceHIdx hi).storeByte hv hi b
  · exact (h.takeToken hk _).complete hq _
  · exact (h.complete hq .none).markValid rfl hs
  · exact h.complete hq _
  · exact h

theorem hdrEmitStep (h : MachineInv s) (hb : s.busy = true) (ho : s.op = .cmd .hdrEmit) (hq : s.oq = []) :
    MachineInv (hdrEmitStep s) := by
  rcases hdrEmitStep_cases s with ⟨-, e⟩ | ⟨-, hi, e⟩ | ⟨-, -, e⟩ | ⟨e, -⟩ <;> rw [e]
  · exact h.complete hq _
  · exact (h.queueByte hb (.inl ho) hq _).advanceHIdx hi
  · exact h.complete hq _
  · exact h

theorem encodeStep (h : MachineInv s) (hb : s.busy = true) (ho : s.op = .cmd .encode) (hq : s.oq = []) :
    MachineInv (encodeStep s) := by
  rcases encodeStep_cases s with ⟨-, e⟩ | ⟨-, -, e⟩ | ⟨b, r, -, -, hk, e⟩ | ⟨r, -, -, hk, e⟩ |
    ⟨r, -, -, hk, hc, e⟩ | ⟨b, r, -, -, hk, -, e⟩ | ⟨r, -, hh, hk, e⟩ <;> rw [e]
  · exact h.complete hq _
  · exact h
  · exact (h.takeToken hk _).holdRun b (by decide) fun _ => rfl
  · exact (h.takeToken hk _).complete hq _
  · exact (h.takeToken hk _).holdRun s.ePrev (show s.eCnt + 1 ≠ 0 by bv_omega) id
  · exact ((h.takeToken hk _).queuePair hb ho hq _ _).holdRun b (by decide) id
  · exact { (h.takeToken hk s.inCount).queuePair hb ho hq s.eCnt s.ePrev with finHave := fun _ => hh }

theorem decodeStep (h : MachineInv s) (hb : s.busy = true) (ho : s.op = .cmd .decode) (hq : s.oq = []) :
    MachineInv (decodeStep s) := by
  rcases decodeStep_cases s with ⟨-, -, e⟩ | ⟨c, r, -, hk, e⟩ | ⟨r, -, hk, e⟩ | ⟨v, r, -, hk, e⟩ |
    ⟨r, -, hk, e⟩ | ⟨-, -, e⟩ | ⟨-, -, e⟩ <;> rw [e]
  · exact h
  · exact (h.takeToken hk _).decoderRegs _ _ _
  · exact (h.takeToken hk _).complete hq _
  · exact (h.takeToken hk _).decoderRegs _ _ _
  · exact (h.takeToken hk _).complete hq _
  · exact (h.queueByte hb (.inr ho) hq _).decoderRegs _ _ _
  · exact h.decoderRegs _ _ _

theorem opStep (h : MachineInv s) (hb : s.busy = true) (hq : s.oq = []) : MachineInv (opStep s) := by
  unfold Machine.opStep
  split
  next => exact h.complete hq _
  next => exact h.complete hq _
  next ho => exact h.hdrParseStep hb ho hq
  next ho => exact h.hdrEmitStep hb ho hq
  next ho => exact h.encodeStep hb ho hq
  next ho => exact h.decodeStep hb ho hq

/-! The block and the host. -/

theorem blockStep (h : MachineInv s) (e : blockStep s = .next t) : MachineInv t := by
  rcases blockStep_cases s with ⟨b, r, hq, hr, e'⟩ | ⟨-, -, e'⟩ | ⟨-, -, e'⟩ | ⟨hq, hb, e'⟩ <;>
    cases e'.symm.trans e
  · exact h.drain hq hr
  · exact h
  · exact h
  · exact h.opStep hb hq

theorem writeCmd (h : MachineInv s) {w : Word} (e : writeCmd w s = .next t) : MachineInv t := by
  rcases writeCmd_cases w s with ⟨-, e'⟩ | ⟨hb, _, -, e'⟩ | ⟨hb, -, e'⟩ | ⟨hb, -, e'⟩ | ⟨hb, -, e'⟩ |
    ⟨hb, -, e'⟩ | ⟨hb, -, e'⟩ <;> cases e'.symm.trans e
  · exact h.hostSide _ _ _ _
  · exact h.accept hb _ nofun
  · exact h.accept hb _ nofun
  · exact (h.clearHeader (v := false) nofun).accept hb _ fun _ => rfl
  · exact (h.clearHeader id).accept hb _ nofun
  · exact (h.accept hb (.cmd .encode) nofun).clearRun
  · exact (h.accept hb (.cmd .decode) nofun).decoderRegs _ _ _

theorem hostStmt (h : MachineInv s) {st : HostStmt} {rest : List HostStmt} (e : hostStmt st rest s = .next t) :
    MachineInv t := by
  have h' := h.hostSide rest s.sched s.reads s.ovr
  rcases hostStmt_cases st rest s with ⟨off, w, -, e'⟩ | ⟨-, e'⟩ | ⟨bt, -, hr, e'⟩ | ⟨-, ht, e'⟩ | ⟨hs, r, e'⟩ <;>
    rw [e'] at e
  · rcases regWrite_cases off w { s with host := rest } with ⟨-, ew⟩ | ⟨-, ew⟩ <;> rw [ew] at e
    · exact h'.writeCmd e
    · cases e
      exact h'
  · cases e
    exact h.applyReset.hostSide _ _ _ _
  · cases e
    exact h'.pushToken hr _
  · cases e
    exact h'.takeOut ht
  · cases e
    exact h.hostSide _ _ _ _

end MachineInv

/-- Settles O37: a step is the block's or the host's, and each keeps the invariant. -/
theorem invariantKept : Obligations.InvariantKept := by
  intro s t h e
  have hp : MachineInv s.popTurn := h.hostSide _ _ _ _
  rcases step_cases s with ⟨-, e'⟩ | ⟨-, -, e'⟩ | ⟨st, rest, -, -, e'⟩ <;> rw [e'] at e
  · exact hp.blockStep e
  · cases e
    exact hp
  · exact hp.hostStmt e

/-- Settles O38: the reset values, clause by clause. -/
theorem resetMeetsInvariant : Obligations.ResetMeetsInvariant := MachineInv.reset

end Sys2Proof.Safety

namespace Sys2Proof.Machine

/-! The OUT port's record (10_state R32). -/

/-- A CMD write delivers nothing. -/
theorem writeCmd_out {s t : State} {w : Word} (e : writeCmd w s = .next t) : t.out = s.out := by
  rcases writeCmd_cases w s with ⟨-, e'⟩ | ⟨-, _, -, e'⟩ | ⟨-, -, e'⟩ | ⟨-, -, e'⟩ | ⟨-, -, e'⟩ | ⟨-, -, e'⟩ |
    ⟨-, -, e'⟩ <;> cases e'.symm.trans e <;> rfl

/-- A host statement, a reset among them, leaves the delivered bytes as they are. -/
theorem hostStmt_out {s t : State} {st : HostStmt} {rest : List HostStmt} (e : hostStmt st rest s = .next t) :
    t.out = s.out := by
  rcases hostStmt_cases st rest s with ⟨off, w, -, e'⟩ | ⟨-, e'⟩ | ⟨_, -, -, e'⟩ | ⟨-, -, e'⟩ | ⟨_, _, e'⟩ <;>
    rw [e'] at e
  · rcases regWrite_cases off w { s with host := rest } with ⟨-, ew⟩ | ⟨-, ew⟩ <;> rw [ew] at e
    · exact writeCmd_out (s := { s with host := rest }) e
    · cases e; rfl
  all_goals cases e; rfl

/-- A block step leaves the delivered bytes as they are, or delivers the head byte of `oq` and counts it. -/
theorem blockStep_out {s t : State} (e : blockStep s = .next t) :
    t.out = s.out ∨
      ∃ b rest, s.oq = b :: rest ∧ t.oq = rest ∧ t.out = s.out ++ [b] ∧ t.outCount = s.outCount + 1 := by
  rcases blockStep_cases s with ⟨b, rest, hq, -, e'⟩ | ⟨-, -, e'⟩ | ⟨-, -, e'⟩ | ⟨-, -, e'⟩ <;>
    cases e'.symm.trans e
  · exact .inr ⟨b, rest, hq, rfl, rfl, rfl⟩
  · exact .inl rfl
  · exact .inl rfl
  · obtain ⟨hout, -⟩ := opStep_keeps s
    exact .inl hout

/-- Settles O43: only the block's drain step adds to `out`. -/
theorem outOnlyGrows : Obligations.OutOnlyGrows := by
  intro s t e
  rcases step_cases s with ⟨ht, e'⟩ | ⟨-, -, e'⟩ | ⟨st, rest, -, -, e'⟩ <;> rw [e'] at e
  · exact (blockStep_out e).imp_right fun ⟨b, rest, h⟩ => ⟨b, rest, ht, h⟩
  · cases e; exact .inl rfl
  · exact .inl (hostStmt_out (s := s.popTurn) e)

/-! Tokens (10_state R26, R30). -/

/-- From `s` to `t` no token is taken, or the head of `inq`, counted exactly when it is a `Byte` (00_scope R12). -/
def TakesAtMostHead (s t : State) : Prop :=
  (t.inq = s.inq ∧ t.inCount = s.inCount) ∨ (∃ b, s.inq = .byte b :: t.inq ∧ t.inCount = s.inCount + 1) ∨
    (s.inq = .endTok :: t.inq ∧ t.inCount = s.inCount)

theorem hdrParseStep_takes (s : State) : TakesAtMostHead s (hdrParseStep s) := by
  rcases hdrParseStep_cases s with ⟨b, r, -, hk, e⟩ | ⟨r, -, hk, e⟩ | ⟨-, -, e⟩ | ⟨-, -, e⟩ | ⟨e, -⟩ <;> rw [e]
  · exact .inr (.inl ⟨b, hk, rfl⟩)
  · exact .inr (.inr ⟨hk, rfl⟩)
  · exact .inl ⟨rfl, rfl⟩
  · exact .inl ⟨rfl, rfl⟩
  · exact .inl ⟨rfl, rfl⟩

theorem encodeStep_takes (s : State) : TakesAtMostHead s (encodeStep s) := by
  rcases encodeStep_cases s with ⟨-, e⟩ | ⟨-, -, e⟩ | ⟨b, r, -, -, hk, e⟩ | ⟨r, -, -, hk, e⟩ |
    ⟨r, -, -, hk, -, e⟩ | ⟨b, r, -, -, hk, -, e⟩ | ⟨r, -, -, hk, e⟩ <;> rw [e]
  · exact .inl ⟨rfl, rfl⟩
  · exact .inl ⟨rfl, rfl⟩
  · exact .inr (.inl ⟨b, hk, rfl⟩)
  · exact .inr (.inr ⟨hk, rfl⟩)
  · exact .inr (.inl ⟨s.ePrev, hk, rfl⟩)
  · exact .inr (.inl ⟨b, hk, rfl⟩)
  · exact .inr (.inr ⟨hk, rfl⟩)

theorem decodeStep_takes (s : State) : TakesAtMostHead s (decodeStep s) := by
  rcases decodeStep_cases s with ⟨-, -, e⟩ | ⟨c, r, -, hk, e⟩ | ⟨r, -, hk, e⟩ | ⟨v, r, -, hk, e⟩ |
    ⟨r, -, hk, e⟩ | ⟨-, -, e⟩ | ⟨-, -, e⟩ <;> rw [e]
  · exact .inl ⟨rfl, rfl⟩
  · exact .inr (.inl ⟨c, hk, rfl⟩)
  · exact .inr (.inr ⟨hk, rfl⟩)
  · exact .inr (.inl ⟨v, hk, rfl⟩)
  · exact .inr (.inr ⟨hk, rfl⟩)
  · exact .inl ⟨rfl, rfl⟩
  · exact .inl ⟨rfl, rfl⟩

/-- HDR_EMIT takes no token and leaves IN_COUNT (40_control R82). -/
theorem hdrEmitStep_takes_none (s : State) :
    (hdrEmitStep s).inq = s.inq ∧ (hdrEmitStep s).inCount = s.inCount := by
  rcases hdrEmitStep_cases s with ⟨-, e⟩ | ⟨-, -, e⟩ | ⟨-, -, e⟩ | ⟨e, -⟩ <;> rw [e] <;> exact ⟨rfl, rfl⟩

/-- NOP, HDR_EMIT and ILLEGAL take no token (40_control R82). -/
theorem opStep_inq_of_no_input {s : State} (h : s.op = .cmd .nop ∨ s.op = .cmd .hdrEmit ∨ s.op = .illegal) :
    (opStep s).inq = s.inq := by
  unfold opStep
  rcases h with h | h | h <;> rw [h]
  · rfl
  · obtain ⟨hq, -⟩ := hdrEmitStep_takes_none s
    exact hq
  · rfl

theorem opStep_takes (s : State) : TakesAtMostHead s (opStep s) := by
  unfold opStep
  split
  next => exact .inl ⟨rfl, rfl⟩
  next => exact .inl ⟨rfl, rfl⟩
  next => exact hdrParseStep_takes s
  next => exact .inl (hdrEmitStep_takes_none s)
  next => exact encodeStep_takes s
  next => exact decodeStep_takes s

/-- Settles O44: the drain step takes no token, and a command step takes what its command may take. -/
theorem tokensTakenInOrder : Obligations.TokensTakenInOrder := by
  intro s t e
  rcases blockStep_cases s with ⟨b, rest, -, -, e'⟩ | ⟨-, -, e'⟩ | ⟨-, -, e'⟩ | ⟨-, -, e'⟩ <;>
    cases e'.symm.trans e
  · exact ⟨.inl ⟨rfl, rfl⟩, fun _ => rfl⟩
  · exact ⟨.inl ⟨rfl, rfl⟩, fun _ => rfl⟩
  · exact ⟨.inl ⟨rfl, rfl⟩, fun _ => rfl⟩
  · exact ⟨opStep_takes s, opStep_inq_of_no_input⟩

/-! Registers after a reset (10_state R35). -/

/-- With every header byte 0x00, every field view is 0. -/
theorem HdrField.view_nil (f : HdrField) : f.view [] = 0 := by
  cases f <;> rfl

theorem Memory.read4_nil (a : Nat) : Memory.read4 [] a = 0 := by
  simp [Memory.read4]

theorem Memory.rawWord_nil (k : Nat) : Memory.rawWord [] k = 0 := by
  unfold Memory.rawWord
  split
  · rfl
  · exact Memory.read4_nil _

/-- After a reset every register reads 0. -/
theorem State.applyReset_regValue (s : State) (r : Reg) : s.applyReset.regValue r = 0 := by
  cases r with
  | field f => exact HdrField.view_nil f
  | raw k => exact Memory.rawWord_nil k
  | cmd => rfl
  | status => exact (by decide : State.reset.statusWord = 0)
  | inCount => rfl
  | outCount => rfl
  | unmapped => rfl

/-- Settles O46: every element is a field of `State.reset`, but for `out`. -/
theorem resetSetsEveryElement : Obligations.ResetSetsEveryElement := by
  intro s rest
  refine ⟨_, rfl, rfl, rfl, rfl, rfl, rfl, rfl, rfl, rfl, rfl, rfl, rfl, rfl, rfl, rfl, rfl, rfl, fun _ => rfl, rfl, rfl,
    rfl, fun off => ?_⟩
  exact State.applyReset_regValue s (regAt off)

/-! STATUS (10_state R20). -/

theorem State.statusWord_flags (s : State) :
    s.statusWord.getLsbD 0 = s.busy ∧ s.statusWord.getLsbD 1 = s.done ∧ s.statusWord.getLsbD 2 = s.hdrValid ∧
      s.statusWord.getLsbD 3 = s.ovr := by
  unfold State.statusWord
  simp only [BitVec.getLsbD_append]
  simp

/-- From bit 4 up STATUS holds ERR, and zeros above ERR's four bits. -/
theorem State.statusWord_getLsbD_add (s : State) (i : Nat) : s.statusWord.getLsbD (4 + i) = s.err.code.getLsbD i := by
  have hi : 4 + i - 1 - 1 - 1 - 1 = i := by omega
  unfold State.statusWord
  simp only [BitVec.getLsbD_append, hi]
  rw [if_neg (by omega), if_neg (by omega), if_neg (by omega), if_neg (by omega)]
  by_cases h : i < 4
  · rw [if_pos h]
  · simp [h, BitVec.getLsbD_of_ge _ _ (Nat.le_of_not_lt h)]

theorem State.statusWord_err (s : State) : s.statusWord.extractLsb' 4 4 = s.err.code := by
  ext i hi
  rw [BitVec.getElem_extractLsb', statusWord_getLsbD_add, BitVec.getLsbD_eq_getElem]

theorem State.statusWord_high (s : State) : s.statusWord.extractLsb' 8 24 = 0#24 := by
  ext i hi
  rw [BitVec.getElem_extractLsb', show 8 + i = 4 + (4 + i) by omega, statusWord_getLsbD_add,
    BitVec.getLsbD_of_ge _ _ (by omega), BitVec.getElem_zero]

/-- Settles O47: bit by bit from the STATUS word; the legal values from the invariant. -/
theorem statusLayout : Obligations.StatusLayout := by
  intro s
  obtain ⟨hbusy, hdone, hvalid, hovr⟩ := s.statusWord_flags
  refine ⟨⟨hbusy, hdone, hvalid, hovr, s.statusWord_err, s.statusWord_high⟩, by cases s.err <;> rfl, fun w => rfl,
    fun h => ⟨fun ⟨hb, hd⟩ => ?_, fun hb => ?_⟩⟩
  · simp [h.busyNotDone hb] at hd
  · rw [h.errOnlyDone (h.busyNotDone hb)]
    rfl

end Sys2Proof.Machine
end

section
/-! PROOFS of the memory family. What each offset of the register space reaches; the header bytes seen through the field
views and the raw words; the side of the state that no register shows; and the block step under other FIFO depths. -/

namespace Sys2Proof.Machine

/-! Register offsets (20_memory R44 to R46). -/

/-- Bits 1:0 of an offset are ignored (20_memory R45). -/
theorem regAt_ignores_low_bits (off : RegAddr) : regAt (off &&& 0xFC#8) = regAt off := by
  revert off; decide

/-- The offsets that reach no register (20_memory R46). -/
theorem regAt_eq_unmapped_iff (off : RegAddr) :
    regAt off = .unmapped ↔ (0x4C ≤ off.toNat ∧ off.toNat ≤ 0x7F) ∨ 0xB8 ≤ off.toNat := by
  revert off; decide

/-- HDR_RAW[k] stands at offset `0x80 + 4 * k` (20_memory R44). -/
theorem regAt_raw : ∀ k < 14, regAt (BitVec.ofNat 8 (0x80 + 4 * k)) = .raw k := by decide

theorem State.regRead_of_regAt {s : State} {off : RegAddr} {r : Reg} (h : regAt off = r) :
    s.regRead off = s.regValue r := congrArg s.regValue h

/-- An access at an offset is one at its word (20_memory R45). -/
theorem State.regRead_word (s : State) (off : RegAddr) : s.regRead (off &&& 0xFC#8) = s.regRead off :=
  s.regRead_of_regAt (regAt_ignores_low_bits off)

theorem regWrite_word (s : State) (off : RegAddr) (w : Word) :
    regWrite (off &&& 0xFC#8) w s = regWrite off w s := by
  unfold regWrite
  rw [regAt_ignores_low_bits]

/-- A write that does not reach CMD is ignored (20_memory R46). -/
theorem regWrite_ignored {s : State} {off : RegAddr} (h : 4 ≤ off.toNat) (w : Word) : regWrite off w s = .next s := by
  rcases regWrite_cases off w s with ⟨h', -⟩ | ⟨-, e⟩
  · omega
  · exact e

/-- Settles O48: each clause from what the offset reaches. -/
theorem registerAccess : Obligations.RegisterAccess := fun s off =>
  ⟨(s.regRead_word off).symm,
    fun h => s.regRead_of_regAt ((regAt_eq_cmd_iff off).mpr h),
    fun hlo hhi => s.regRead_of_regAt ((regAt_eq_unmapped_iff off).mpr (.inl ⟨hlo, hhi⟩)),
    fun h => s.regRead_of_regAt ((regAt_eq_unmapped_iff off).mpr (.inr h)),
    rfl, rfl, fun w => (regWrite_word s off w).symm, fun w h => regWrite_ignored h w⟩

/-! Field views (20_memory R43, R47). -/

theorem Memory.read2_toNat (m : Memory) (a : Nat) :
    (m.read2 a).toNat = (m.read a).toNat + 256 * (m.read (a + 1)).toNat := append2_toNat _ _

theorem Memory.read4_toNat (m : Memory) (a : Nat) :
    (m.read4 a).toNat = (m.read a).toNat + 256 * (m.read (a + 1)).toNat + 65536 * (m.read (a + 2)).toNat +
      16777216 * (m.read (a + 3)).toNat := append4_toNat _ _ _ _

/-- A 16-bit value keeps its value when it is zero-extended. -/
theorem Memory.read2_zeroExtend_toNat (m : Memory) (a : Nat) :
    ((m.read2 a).zeroExtend 32).toNat = (m.read a).toNat + 256 * (m.read (a + 1)).toNat := by
  rw [BitVec.zeroExtend, BitVec.toNat_setWidth_of_le (by decide), read2_toNat]

/-- A sign-extended 16-bit value is negative exactly when the top bit of its high byte is 1 (30_encoding R74). -/
theorem Memory.read2_signExtend_toInt (m : Memory) (a : Nat) :
    ((m.read2 a).signExtend 32).toInt =
      if (m.read (a + 1)).toNat < 128 then (((m.read a).toNat + 256 * (m.read (a + 1)).toNat : Nat) : Int)
      else (((m.read a).toNat + 256 * (m.read (a + 1)).toNat : Nat) : Int) - 65536 := by
  have hlow := (m.read a).isLt
  rw [BitVec.toInt_signExtend_of_le (by decide), BitVec.toInt_eq_toNat_cond, read2_toNat]
  refine if_congr ?_ rfl rfl
  omega

/-- Settles O49: each offset reaches its field, whose view is a 16-bit or a 32-bit read of `hbuf`. -/
theorem fieldViewsLittleEndian : Obligations.FieldViewsLittleEndian := fun s =>
  have zext := s.hbuf.read2_zeroExtend_toNat
  have sext := s.hbuf.read2_signExtend_toInt
  have word := s.hbuf.read4_toNat
  ⟨zext 0, word 2, word 6, word 10, word 14, word 18, word 22, sext 26, sext 28, word 30, word 34, word 38, word 42,
    word 46, word 50⟩

/-! Raw header words (20_memory R48). -/

/-- Above the lowest byte of a word stand the bytes put together before it. -/
theorem extractLsb'_append_byte {n : Nat} (x : BitVec n) (b : Byte) (i len : Nat) :
    (x ++ b).extractLsb' (8 + i) len = x.extractLsb' i len := by
  rw [BitVec.extractLsb'_append_eq_of_le (Nat.le_add_right 8 i), Nat.add_sub_cancel_left]

/-- The byte of four that stands `j` places above the lowest. -/
theorem Memory.read4_byte (m : Memory) (a : Nat) {j : Nat} (hj : j < 4) :
    (m.read4 a).extractLsb' (8 * j) 8 = m.read (a + j) := by
  unfold read4
  match j, hj with
  | 0, _ => exact BitVec.extractLsb'_append_eq_right
  | 1, _ => exact (extractLsb'_append_byte _ _ 0 8).trans BitVec.extractLsb'_append_eq_right
  | 2, _ =>
    exact (extractLsb'_append_byte _ _ 8 8).trans
      ((extractLsb'_append_byte _ _ 0 8).trans BitVec.extractLsb'_append_eq_right)
  | 3, _ =>
    exact (extractLsb'_append_byte _ _ 16 8).trans
      ((extractLsb'_append_byte _ _ 8 8).trans BitVec.extractLsb'_append_eq_left)

/-- HDR_RAW[k] for `k` up to 12, byte by byte. -/
theorem Memory.rawWord_byte (m : Memory) {k j : Nat} (hk : k ≤ 12) (hj : j < 4) :
    (m.rawWord k).extractLsb' (8 * j) 8 = m.read (4 * k + j) := by
  rw [rawWord, if_neg (by omega), read4_byte m _ hj]

/-- HDR_RAW[13] holds the last two header bytes. -/
theorem Memory.rawWord_last (m : Memory) : m.rawWord 13 = 0#16 ++ m.read 53 ++ m.read 52 := rfl

/-- Settles O50: `regAt_raw`, then the bytes of the word it reaches. -/
theorem rawWordsShowHeader : Obligations.RawWordsShowHeader := by
  intro s k
  have hlast : s.regRead 0xB4#8 = 0#16 ++ s.hbuf.read 53 ++ s.hbuf.read 52 :=
    (s.regRead_of_regAt (regAt_raw 13 (by decide))).trans s.hbuf.rawWord_last
  rw [hlast]
  refine ⟨fun hk j hj => ?_, BitVec.extractLsb'_append_eq_right,
    (extractLsb'_append_byte _ _ 0 8).trans BitVec.extractLsb'_append_eq_right,
    (extractLsb'_append_byte _ _ 8 16).trans BitVec.extractLsb'_append_eq_left⟩
  rw [s.regRead_of_regAt (regAt_raw k (by omega))]
  exact s.hbuf.rawWord_byte hk hj

/-! Register reads (20_memory R49). -/

/-- No register shows the host's own side of the state. -/
theorem State.regValue_of_hostSide (s : State) (hs : List HostStmt) (rs : List (RegAddr × Word)) (r : Reg) :
    ({ s with host := hs, reads := rs } : State).regValue r = s.regValue r := by
  cases r <;> rfl

/-- Settles O51: a read writes only the host's own side, which no register shows. -/
theorem readsHaveNoSideEffect : Obligations.ReadsHaveNoSideEffect := fun s _ rest =>
  ⟨_, rfl, rfl, fun other => s.regValue_of_hostSide rest _ (regAt other)⟩

/-! FIFO depths (00_scope R9, 20_memory R40). -/

/-- The same state behind FIFOs of other depths. -/
def State.withDepths (d e : Config.FifoDepth) (s : State) : State := { s with inDepth := d, outDepth := e }

@[simp] theorem State.withDepths_op (s : State) (d e : Config.FifoDepth) : (s.withDepths d e).op = s.op := rfl

/-- `encodeStep_update` with the header as it stands. -/
theorem encodeStep_withDepths (s : State) (d e : Config.FifoDepth) :
    encodeStep (s.withDepths d e) = (encodeStep s).withDepths d e := by
  have hkeep := encodeStep_update s s.hbuf s.hdrValid s.inDepth s.outDepth
  exact (encodeStep_update s s.hbuf s.hdrValid d e).trans (congrArg (State.withDepths d e) hkeep).symm

/-- `decodeStep_update` with the header as it stands. -/
theorem decodeStep_withDepths (s : State) (d e : Config.FifoDepth) :
    decodeStep (s.withDepths d e) = (decodeStep s).withDepths d e := by
  have hkeep := decodeStep_update s s.hbuf s.hdrValid s.inDepth s.outDepth
  exact (decodeStep_update s s.hbuf s.hdrValid d e).trans (congrArg (State.withDepths d e) hkeep).symm

/-- No command step reads or writes the FIFO depths. -/
theorem opStep_withDepths (s : State) (d e : Config.FifoDepth) :
    opStep (s.withDepths d e) = (opStep s).withDepths d e := by
  unfold opStep
  rw [State.withDepths_op]
  rcases s.op with i | _
  · cases i with
    | nop => rfl
    | hdrParse => exact hdrParseStep_update s d e
    | hdrEmit => exact hdrEmitStep_update s d e
    | encode => exact encodeStep_withDepths s d e
    | decode => exact decodeStep_withDepths s d e
  · rfl

/-- 40_control R92, the drain step. -/
theorem blockStep_drain {s : State} {b : Byte} {rest : List Byte} (hq : s.oq = b :: rest) (hr : s.outRoom = true) :
    blockStep s = .next (s.drain b rest) := by simp [blockStep, hq, hr]

theorem blockStep_idle {s : State} (hq : s.oq = []) (hb : s.busy = false) : blockStep s = .next s := by
  simp [blockStep, hq, hb]

/-- 40_control R86, a step of the command in progress. -/
theorem blockStep_command {s : State} (hq : s.oq = []) (hb : s.busy = true) : blockStep s = .next (opStep s) := by
  simp [blockStep, hq, hb, runOp_running hb hq]

/-- Settles O42: the OUT depth decides only whether the drain step waits, and no command step reads a depth. -/
theorem depthsOnlyDelay : Obligations.DepthsOnlyDelay := by
  intro s t d e h s'
  have hroom : (s.withDepths .unbounded .unbounded).outRoom = true := rfl
  rcases blockStep_cases s' with ⟨b, rest, hq, -, e'⟩ | hwait | ⟨hq, hb, e'⟩ | ⟨hq, hb, e'⟩
  · cases h.symm.trans (blockStep_drain hq hroom)
    exact .inr e'
  · exact .inl hwait
  · cases h.symm.trans (blockStep_idle hq hb)
    exact .inr e'
  · cases h.symm.trans (blockStep_command hq hb)
    exact .inr (e'.trans (congrArg _ (opStep_withDepths (s.withDepths .unbounded .unbounded) d e)))

end Sys2Proof.Machine
end

section
/-! PROOFS of the encoding family. The three outcomes of `decode`, each by the value of the word, so that every word has
exactly one; and the equations of the host statements that give their meaning to beats, waits, takes and checks. -/

namespace Sys2Proof

/-! Command words (30_encoding R64, R69). -/

/-- CMD.RSV is zero exactly where the word is below 16 (30_encoding R64). -/
theorem cmdReserved_eq_zero_iff (w : Word) : cmdReserved w = 0#28 ↔ w.toNat < 16 := by
  rw [← BitVec.toNat_inj, cmdReserved_toNat]
  exact Nat.div_eq_zero_iff_lt (by decide)

/-- The command word has its opcode's value (30_encoding R69). -/
theorem encode_toNat (i : Instr) : (encode i).toNat = (opcode i).toNat :=
  BitVec.toNat_setWidth_of_le (by decide)

theorem opcode_toNat_le (i : Instr) : (opcode i).toNat ≤ 4 := by
  cases i <;> decide

/-- The two fields make the whole word. -/
theorem eq_encode_of_fields {w : Word} {i : Instr} (hr : cmdReserved w = 0#28) (ho : cmdOp w = opcode i) :
    w = encode i := by
  have hlow : w.toNat < 16 := (cmdReserved_eq_zero_iff w).mp hr
  apply BitVec.eq_of_toNat_eq
  rw [encode_toNat, ← ho, cmdOp_toNat, Nat.mod_eq_of_lt hlow]

/-! Decoding (30_encoding R65). -/

theorem decode_encode (i : Instr) : decode (encode i) = .legal i := by
  cases i with
  | nop => exact Laws.RoundTrip.nop.1
  | hdrParse => exact Laws.RoundTrip.hdrParse.1
  | hdrEmit => exact Laws.RoundTrip.hdrEmit.1
  | encode => exact Laws.RoundTrip.encode.1
  | decode => exact Laws.RoundTrip.decode.1

/-- What each outcome of `decode` says of the word's two fields. -/
theorem decode_cases (w : Word) :
    (cmdReserved w ≠ 0#28 ∧ decode w = .illegal .reservedBits) ∨
    (∃ i, cmdReserved w = 0#28 ∧ cmdOp w = opcode i ∧ decode w = .legal i) ∨
    (cmdReserved w = 0#28 ∧ (∀ i, cmdOp w ≠ opcode i) ∧ decode w = .illegal .reservedOpcode) := by
  by_cases hr : cmdReserved w = 0#28
  · right
    by_cases ho : ∃ i, cmdOp w = opcode i
    · obtain ⟨i, ho⟩ := ho
      exact .inl ⟨i, hr, ho, eq_encode_of_fields hr ho ▸ decode_encode i⟩
    · have ho : ∀ i, cmdOp w ≠ opcode i := not_exists.mp ho
      refine .inr ⟨hr, ho, ?_⟩
      exact (if_neg (not_not.mpr hr)).trans <| (if_neg (ho .nop)).trans <| (if_neg (ho .hdrParse)).trans <|
        (if_neg (ho .hdrEmit)).trans <| (if_neg (ho .encode)).trans <| if_neg (ho .decode)
  · exact .inl ⟨hr, if_pos hr⟩

/-- A legal word is its command's own word, and no other (30_encoding R69). -/
theorem decode_eq_legal_iff (w : Word) (i : Instr) : decode w = .legal i ↔ w = encode i := by
  constructor
  · intro h
    rcases decode_cases w with ⟨-, e⟩ | ⟨j, hr, ho, e⟩ | ⟨-, -, e⟩
    · cases e.symm.trans h
    · cases e.symm.trans h
      exact eq_encode_of_fields hr ho
    · cases e.symm.trans h
  · rintro rfl
    exact decode_encode i

theorem decode_eq_reservedBits {w : Word} (h : 16 ≤ w.toNat) : decode w = .illegal .reservedBits :=
  if_pos fun hr => absurd ((cmdReserved_eq_zero_iff w).mp hr) (Nat.not_lt.mpr h)

theorem decode_eq_reservedOpcode {w : Word} (hlo : 5 ≤ w.toNat) (hhi : w.toNat ≤ 15) :
    decode w = .illegal .reservedOpcode := by
  rcases decode_cases w with ⟨hr, -⟩ | ⟨i, -, ho, -⟩ | ⟨-, -, e⟩
  · exact absurd ((cmdReserved_eq_zero_iff w).mpr (by omega)) hr
  · have hval : w.toNat % 16 = (opcode i).toNat := ho ▸ (cmdOp_toNat w).symm
    have hop := opcode_toNat_le i
    omega
  · exact e

/-- A word that has an opcode's value decodes to its command. -/
theorem decode_of_toNat {w : Word} (i : Instr) (h : w.toNat = (opcode i).toNat) : decode w = .legal i :=
  (decode_eq_legal_iff w i).mpr (BitVec.eq_of_toNat_eq (h.trans (encode_toNat i).symm))

/-- Settles O2: the two illegal ranges, then each legal word by its opcode's value. -/
theorem decodeEveryWord : Obligations.DecodeEveryWord := fun _ =>
  ⟨decode_eq_reservedBits, decode_eq_reservedOpcode, decode_of_toNat .nop, decode_of_toNat .hdrParse,
    decode_of_toNat .hdrEmit, decode_of_toNat .encode, decode_of_toNat .decode⟩

/-- The table's word is the CMD word of the same number. -/
theorem decodeTableWord_eq_some_iff (n : Nat) (i : Instr) :
    decodeTableWord 32 n = some i ↔ decode (BitVec.ofNat 32 (n % 2 ^ 32)) = .legal i := by
  rw [decodeTableWord, if_pos le_rfl]
  cases decode (BitVec.ofNat 32 (n % 2 ^ 32)) <;> simp

/-- Settles O3: `decode_eq_legal_iff`, for the CMD word and for the table's word by its value. -/
theorem decodeExactlyEncode : Obligations.DecodeExactlyEncode :=
  ⟨decode_eq_legal_iff, fun n i => by
    rw [decodeTableWord_eq_some_iff, decode_eq_legal_iff, ← BitVec.toNat_inj, BitVec.toNat_ofNat, Nat.mod_mod]⟩

/-- Settles O1: each word lies in a case of `decodeEveryWord`. -/
theorem specWordsDecode : Obligations.SpecWordsDecode :=
  ⟨decode_of_toNat .nop rfl, decode_of_toNat .hdrParse rfl, decode_of_toNat .hdrEmit rfl, decode_of_toNat .encode rfl,
    decode_of_toNat .decode rfl, decode_eq_reservedBits (by decide), decode_eq_reservedOpcode (by decide) (by decide),
    decode_eq_reservedOpcode (by decide) (by decide), decode_eq_reservedBits (by decide)⟩

namespace Machine

/-! Beats (30_encoding R66). -/

theorem Token.ofBeat_of_end {beat : Beat} (h : beat.getLsbD 8 = true) : Token.ofBeat beat = .endTok := if_pos h

theorem Token.ofBeat_of_data {beat : Beat} (h : beat.getLsbD 8 = false) :
    Token.ofBeat beat = .byte (beat.extractLsb' 0 8) := if_neg (Bool.not_eq_true _ ▸ h)

theorem hostStmt_push_room {s : State} (hr : s.inRoom = true) (beat : Beat) (rest : List HostStmt) :
    hostStmt (.push beat) rest s = .next { s with inq := s.inq ++ [Token.ofBeat beat], host := rest } := if_pos hr

/-- A push waits while the IN FIFO is full (20_memory R40). -/
theorem hostStmt_push_full {s : State} (hr : s.inRoom = false) (beat : Beat) (rest : List HostStmt) :
    hostStmt (.push beat) rest s = .next s := if_neg (Bool.not_eq_true _ ▸ hr)

/-- Settles O52: with room the beat's token joins `inq`, END or data by bit 8; without room the push waits. -/
theorem pushedBeatJoinsQueue : Obligations.PushedBeatJoinsQueue := fun _ beat rest =>
  ⟨fun hr hend => Token.ofBeat_of_end hend ▸ hostStmt_push_room hr beat rest,
    fun hr hdata => Token.ofBeat_of_data hdata ▸ hostStmt_push_room hr beat rest,
    fun hr => hostStmt_push_full hr beat rest⟩

/-! The host's wait, take and expect (30_encoding R80). -/

/-- `wait` is one read of STATUS, which stands at offset 0x04 (20_memory R44). -/
theorem hostStmt_poll (rest : List HostStmt) (s : State) :
    hostStmt .poll rest s = .next { s with
      reads := s.reads ++ [(0x04#8, s.statusWord)], host := if s.busy then s.host else rest } := rfl

theorem hostStmt_take_some {s : State} (h : s.outTaken < s.out.length) (rest : List HostStmt) :
    hostStmt .take rest s = .next { s with outTaken := s.outTaken + 1, host := rest } := if_pos h

/-- A take waits while the OUT port holds nothing (70_reset_and_hazards R171; log entry 5). -/
theorem hostStmt_take_none {s : State} (h : s.out.length ≤ s.outTaken) (rest : List HostStmt) :
    hostStmt .take rest s = .next s := if_neg (Nat.not_lt.mpr h)

theorem hostStmt_expect_met {s : State} {off : RegAddr} {hi lo : Nat} {v : Word}
    (h : fieldOf (s.regRead off) hi lo = v.toNat) (rest : List HostStmt) :
    hostStmt (.expect off hi lo v) rest s = .next { s with host := rest } := by
  rw [hostStmt, if_pos h]

/-- An `expect` that fails ends the host's program (log entry 11). -/
theorem hostStmt_expect_failed {s : State} {off : RegAddr} {hi lo : Nat} {v : Word}
    (h : fieldOf (s.regRead off) hi lo ≠ v.toNat) (rest : List HostStmt) :
    hostStmt (.expect off hi lo v) rest s = .next { s with host := [] } := by
  rw [hostStmt, if_neg h]

/-- Settles O53: the equation of each statement. -/
theorem hostWaitsTakesAndChecks : Obligations.HostWaitsTakesAndChecks := fun s rest =>
  ⟨hostStmt_poll rest s, fun h => hostStmt_take_some h rest, fun h => hostStmt_take_none h rest,
    fun _ _ _ _ _ _ => ⟨fun h => hostStmt_expect_met h rest, fun h => hostStmt_expect_failed h rest⟩⟩

end Machine

end Sys2Proof
end

section
/-! PROOFS of the control family. How a command comes to run and what it waits for; its acceptance and its completion;
what a block step may write; and that every enabled block step leaves less to do, so that a supplied command
completes. -/

namespace Sys2Proof.Machine

/-! CMD writes (40_control R87, R88). -/

/-- A write below offset 4 is one to CMD (20_memory R45; log entry 15). -/
theorem regWrite_cmd {off : RegAddr} (h : off.toNat < 4) (w : Word) (s : State) : regWrite off w s = writeCmd w s :=
  if_pos ((regAt_eq_cmd_iff off).mpr h)

theorem writeCmd_busy {s : State} (hb : s.busy = true) (w : Word) : writeCmd w s = .next { s with ovr := true } :=
  if_pos hb

theorem writeCmd_legal {s : State} {w : Word} {i : Instr} (hb : s.busy = false) (hd : decode w = .legal i) :
    writeCmd w s = exec i s := by
  simp [writeCmd, hb, hd]

/-- The words from 5 up are the illegal ones (30_encoding R65, R70). -/
theorem decode_illegal_of_five_le {w : Word} (h : 5 ≤ w.toNat) : ∃ why, decode w = .illegal why := by
  by_cases hw : w.toNat ≤ 15
  · exact ⟨_, decode_eq_reservedOpcode h hw⟩
  · exact ⟨_, decode_eq_reservedBits (by omega)⟩

/-- An illegal word is accepted as ILLEGAL (40_control R88, R95). -/
theorem writeCmd_illegal {s : State} {w : Word} (hb : s.busy = false) (h : 5 ≤ w.toNat) :
    writeCmd w s = .next (s.accept .illegal) := by
  obtain ⟨why, hd⟩ := decode_illegal_of_five_le h
  simp [writeCmd, hb, hd, execIllegal, command_idle]

/-- The opcode in a legal word is that of its command (30_encoding R64, R69). -/
theorem cmdOp_of_decode_legal {w : Word} {i : Instr} (hd : decode w = .legal i) : cmdOp w = opcode i := by
  rcases decode_cases w with ⟨-, e⟩ | ⟨j, -, ho, e⟩ | ⟨-, -, e⟩ <;> cases e.symm.trans hd
  exact ho

/-- Settles O12: `writeCmd_busy` at the offsets that reach CMD. -/
theorem busyWriteDropped : Obligations.BusyWriteDropped := fun s _ w hb ho =>
  (regWrite_cmd ho w s).trans (writeCmd_busy hb w)

/-- Settles O13: the acceptance of each command, and `writeCmd` by what the word decodes to. -/
theorem acceptanceInitialises : Obligations.AcceptanceInitialises := fun _ hb =>
  ⟨exec_nop_idle hb, exec_hdrParse_idle hb, exec_hdrEmit_idle hb, exec_encode_idle hb, exec_decode_idle hb,
    fun _ hw => writeCmd_illegal hb hw, rfl,
    fun _ _ hd => ⟨writeCmd_legal hb hd, (cmdOp_of_decode_legal hd).symm⟩⟩

/-- Settles O5: the host's statement is a CMD write, which an idle block accepts. -/
theorem stepRunsWrittenCommand : Obligations.StepRunsWrittenCommand := by
  intro s off w rest i ht hh ho hb hd
  calc step s = regWrite off w { s.popTurn with host := rest } := step_of_turn_host_cons ht hh
    _ = writeCmd w { s.popTurn with host := rest } := regWrite_cmd ho w _
    _ = exec i { s.popTurn with host := rest } := writeCmd_legal hb hd

/-- Settles O7: the placed word is a CMD write that the host makes next. -/
theorem placedWordRunsNext : Obligations.PlacedWordRunsNext := fun s n i hd =>
  stepRunsWrittenCommand (s.withFetchWord 32 n) 0x00#8 _ s.host i (turn_of_sched_cons rfl) rfl (by decide) rfl
    ((decodeTableWord_eq_some_iff n i).mp hd)

/-! A command while BUSY = 1 (40_control R86). -/

/-- While OP names a command and `oq` is empty, `exec` takes its command step. -/
theorem exec_running {s : State} {i : Instr} (hb : s.busy = true) (ho : s.op = .cmd i) (hq : s.oq = []) :
    exec i s = .next (opStep s) := by
  have h := runOp_running hb hq
  rwa [runOp, ho] at h

/-- A command that OP does not name, or behind a byte in `oq`, waits. -/
theorem exec_not_running {s : State} {i : Instr} (hb : s.busy = true) (h : ¬(s.op = .cmd i ∧ s.oq = [])) :
    exec i s = .next s := by
  have waits (init body : State → State) : command (.cmd i) init body s = s := by
    rcases command_cases (.cmd i) init body s with ⟨hb', -⟩ | ⟨-, ho, hq, -⟩ | ⟨-, -, e⟩
    · simp [hb] at hb'
    · exact absurd ⟨ho, hq⟩ h
    · exact e
  cases i <;> exact congrArg Host.Outcome.next (waits _ _)

/-- Settles O6: the block's step is the command step OP names, and so is `exec` of that command. -/
theorem stepRunsCommandInProgress : Obligations.StepRunsCommandInProgress := by
  intro s i ht hb ho hq
  calc step s = blockStep s.popTurn := step_of_turn_block ht
    _ = .next (opStep s.popTurn) := blockStep_command hq hb
    _ = exec i s.popTurn := (exec_running (s := s.popTurn) hb ho hq).symm

/-! What is left to do. -/

/-- What the decoder still has to emit of the pair in hand: two block steps for each copy, and DE_NEXT. -/
def emitWork (s : State) : Nat :=
  match s.dPhase with
  | .emit => 2 * s.dRem.toNat + 1
  | _ => 0

/-- A bound on the block steps that are left for the tokens at hand. A token weighs more than all that taking it can
add: 255 copies of a value at two steps each, and DE_NEXT. -/
def work (s : State) : Nat :=
  s.busy.toNat + s.oq.length + 512 * s.inq.length + 2 * (54 - s.hIdx.toNat) + emitWork s

/-- A step from `s` to `t` leaves less to do where it is enabled, and is no step at all where it is not. -/
def Progress (ready : Bool) (s t : State) : Prop :=
  (ready = true ∧ work t < work s) ∨ (ready = false ∧ t = s)

theorem Progress.eq_self_iff {ready : Bool} {s t : State} (h : Progress ready s t) : t = s ↔ ready = false := by
  rcases h with ⟨hr, hlt⟩ | ⟨hr, e⟩
  · have hne : t ≠ s := fun e => Nat.lt_irrefl _ (e ▸ hlt)
    simp [hr, hne]
  · simp [hr, e]

theorem Progress.work_lt {s t : State} (h : Progress true s t) : work t < work s := by
  rcases h with ⟨-, hlt⟩ | ⟨h, -⟩
  · exact hlt
  · cases h

/-- H_IDX does not wrap below 54 (10_state R15). -/
theorem State.hIdx_succ_toNat {s : State} (hi : s.hIdx.toNat < 54) : (s.hIdx + 1).toNat = s.hIdx.toNat + 1 := by
  bv_omega

theorem work_drain_lt {s : State} {b : Byte} {rest : List Byte} (hq : s.oq = b :: rest) :
    work (s.drain b rest) < work s := by
  simp [work, emitWork, hq]

/-- A completion that takes at most an END (40_control R90). -/
theorem work_complete_lt {s : State} (hb : s.busy = true) (e : Err) {ts : List Token}
    (hl : ts.length ≤ s.inq.length) : work (State.complete e { s with inq := ts }) < work s := by
  simp only [work, emitWork, hb, State.complete, Bool.toNat_true, Bool.toNat_false]
  omega

theorem hdrParseStep_progress {s : State} (hb : s.busy = true) : Progress (hdrParseReady s) s (hdrParseStep s) := by
  unfold hdrParseReady State.inPeek
  rcases hdrParseStep_cases s with ⟨b, r, hi, hk, e⟩ | ⟨r, hi, hk, e⟩ | ⟨hi, -, e⟩ | ⟨hi, -, e⟩ | ⟨e, h⟩ <;> rw [e]
  · refine .inl ⟨by simp [hi, hk], ?_⟩
    simp only [work, emitWork, hk, State.hIdx_succ_toNat hi, List.length_cons]
    omega
  · exact .inl ⟨by simp [hi, hk], work_complete_lt hb _ (by simp [hk])⟩
  · exact .inl ⟨by simp [hi], work_complete_lt hb .none le_rfl⟩
  · exact .inl ⟨by simp [hi], work_complete_lt hb _ le_rfl⟩
  · refine .inr ⟨?_, rfl⟩
    rcases h with ⟨hi, hk⟩ | hi
    · simp [hk, hi.ne]
    · simp [hi.not_gt, hi.ne']

theorem hdrEmitStep_progress {s : State} (hb : s.busy = true) : Progress (hdrEmitReady s) s (hdrEmitStep s) := by
  unfold hdrEmitReady
  rcases hdrEmitStep_cases s with ⟨hv, e⟩ | ⟨-, hi, e⟩ | ⟨-, hi, e⟩ | ⟨e, hv, hi⟩ <;> rw [e]
  · exact .inl ⟨by simp [hv], work_complete_lt hb _ le_rfl⟩
  · refine .inl ⟨by simp [hi.le], ?_⟩
    simp only [work, emitWork, State.hIdx_succ_toNat hi, List.length_append, List.length_singleton]
    omega
  · exact .inl ⟨by simp [hi], work_complete_lt hb _ le_rfl⟩
  · exact .inr ⟨by simp [hv, hi], rfl⟩

theorem encodeStep_progress {s : State} (hb : s.busy = true) : Progress (encodeReady s) s (encodeStep s) := by
  unfold encodeReady State.inPeek
  rcases encodeStep_cases s with ⟨hf, e⟩ | ⟨hf, hk, e⟩ | ⟨b, r, -, -, hk, e⟩ | ⟨r, -, -, hk, e⟩ |
    ⟨r, -, -, hk, -, e⟩ | ⟨b, r, -, -, hk, -, e⟩ | ⟨r, -, -, hk, e⟩ <;> rw [e]
  · exact .inl ⟨by simp [hf], work_complete_lt hb _ le_rfl⟩
  · exact .inr ⟨by simp [hf, hk], rfl⟩
  · exact .inl ⟨by simp [hk], by simp [work, emitWork, hk]⟩
  · exact .inl ⟨by simp [hk], work_complete_lt hb _ (by simp [hk])⟩
  · exact .inl ⟨by simp [hk], by simp [work, emitWork, hk]⟩
  · refine .inl ⟨by simp [hk], ?_⟩
    simp only [work, emitWork, hk, List.length_append, List.length_cons, List.length_nil]
    omega
  · refine .inl ⟨by simp [hk], ?_⟩
    simp only [work, emitWork, hk, List.length_append, List.length_cons, List.length_nil]
    omega

theorem decodeStep_progress {s : State} (hb : s.busy = true) : Progress (decodeReady s) s (decodeStep s) := by
  unfold decodeReady State.inPeek
  rcases decodeStep_cases s with ⟨hp, hk, e⟩ | ⟨c, r, hp, hk, e⟩ | ⟨r, -, hk, e⟩ | ⟨v, r, hp, hk, e⟩ |
    ⟨r, -, hk, e⟩ | ⟨hp, hd, e⟩ | ⟨hp, hd, e⟩ <;> rw [e]
  · exact .inr ⟨by simp [hp, hk], rfl⟩
  · exact .inl ⟨by simp [hk], by simp [work, emitWork, hp, hk]⟩
  · exact .inl ⟨by simp [hk], work_complete_lt hb _ (by simp [hk])⟩
  · have hlt := s.dRem.isLt
    refine .inl ⟨by simp [hk], ?_⟩
    simp only [work, emitWork, hp, hk, List.length_cons]
    omega
  · exact .inl ⟨by simp [hk], work_complete_lt hb _ (by simp [hk])⟩
  · have hone : (s.dRem - 1).toNat = s.dRem.toNat - 1 := by bv_omega
    refine .inl ⟨by simp [hp], ?_⟩
    simp only [work, emitWork, hp, hone, List.length_append, List.length_singleton]
    omega
  · exact .inl ⟨by simp [hp], by simp [work, emitWork, hp]⟩

theorem opStep_progress {s : State} (hb : s.busy = true) : Progress (opReady s) s (opStep s) := by
  unfold opReady opStep
  rcases s.op with i | _
  · cases i with
    | nop => exact .inl ⟨rfl, work_complete_lt hb _ le_rfl⟩
    | hdrParse => exact hdrParseStep_progress hb
    | hdrEmit => exact hdrEmitStep_progress hb
    | encode => exact encodeStep_progress hb
    | decode => exact decodeStep_progress hb
  · exact .inl ⟨rfl, work_complete_lt hb _ le_rfl⟩

theorem blockStep_progress (s : State) : ∃ t, blockStep s = .next t ∧ Progress (blockReady s) s t := by
  unfold blockReady
  rcases blockStep_cases s with ⟨b, rest, hq, hr, e⟩ | ⟨hq, hr, e⟩ | ⟨hq, hb, e⟩ | ⟨hq, hb, e⟩
  · exact ⟨_, e, .inl ⟨by simp [hq, hr], work_drain_lt hq⟩⟩
  · exact ⟨_, e, .inr ⟨by simp [hq, hr], rfl⟩⟩
  · exact ⟨_, e, .inr ⟨by simp [hq, hb], rfl⟩⟩
  · exact ⟨_, e, by simpa [hq, hb] using opStep_progress hb⟩

/-- Settles O9: a step that leaves less to do changes the state. -/
theorem blockIdleIffNotReady : Obligations.BlockIdleIffNotReady := by
  intro s
  obtain ⟨t, e, hp⟩ := blockStep_progress s
  rw [e, Host.Outcome.next.injEq, hp.eq_self_iff]

/-- Settles O8: the command is not running, or none of its rules is enabled. -/
theorem commandWaitsUnchanged : Obligations.CommandWaitsUnchanged := by
  intro s i hb h
  by_cases hrun : s.op = .cmd i ∧ s.oq = []
  · obtain ⟨ho, hq⟩ := hrun
    have hr : opReady s = false := by
      rcases h with h | h | ⟨rfl, hi, hk⟩ | ⟨rfl, hf, hk⟩ | ⟨rfl, hp, hk⟩
      · exact absurd ho h
      · exact absurd hq h
      · simp [opReady, ho, hdrParseReady, State.inPeek, hk, hi.ne]
      · simp [opReady, ho, encodeReady, State.inPeek, hf, hk]
      · simp [opReady, ho, decodeReady, State.inPeek, hp, hk]
    rw [exec_running hb ho hq, (opStep_progress hb).eq_self_iff.mpr hr]
  · exact exec_not_running hb hrun

/-- Settles O10: the drain step, its wait, and the invariant's clause on an idle block. -/
theorem drainStepDelivers : Obligations.DrainStepDelivers := by
  refine ⟨fun s b rest hq hr => blockStep_drain hq hr, fun s hq hr => ?_, fun s h hq => ?_⟩
  · have hready : blockReady s = false := by simp [blockReady, hq, hr]
    exact (blockIdleIffNotReady s).mpr hready
  · exact Bool.not_eq_false _ ▸ mt h.idleDrained hq

/-! Completion (40_control R90, 60_exceptions R142 to R144). -/

/-- From `s` to `t` the command in progress completes: besides STATUS only an END may be taken, and HDR_VALID changes
only where HDR_PARSE succeeds. -/
def Completes (s t : State) : Prop :=
  ∃ e ts v, t = { s.complete e with inq := ts, hdrValid := v } ∧ (ts = s.inq ∨ s.inq = .endTok :: ts) ∧
    (v = s.hdrValid ∨ (s.op = .cmd .hdrParse ∧ e = .none))

theorem completes_complete (s : State) (e : Err) : Completes s (s.complete e) :=
  ⟨e, s.inq, s.hdrValid, rfl, .inl rfl, .inl rfl⟩

theorem completes_complete_take_end {s : State} {rest : List Token} (hk : s.inq = .endTok :: rest) (e : Err) :
    Completes s (State.complete e { s with inq := rest }) :=
  ⟨e, rest, s.hdrValid, rfl, .inr hk, .inl rfl⟩

theorem hdrParseStep_busy_or_completes {s : State} (ho : s.op = .cmd .hdrParse) :
    (hdrParseStep s).busy = s.busy ∨ Completes s (hdrParseStep s) := by
  rcases hdrParseStep_cases s with ⟨b, r, -, -, e⟩ | ⟨r, -, hk, e⟩ | ⟨-, -, e⟩ | ⟨-, -, e⟩ | ⟨e, -⟩ <;> rw [e]
  · exact .inl rfl
  · exact .inr (completes_complete_take_end hk _)
  · exact .inr ⟨.none, s.inq, true, rfl, .inl rfl, .inr ⟨ho, rfl⟩⟩
  · exact .inr (completes_complete s _)
  · exact .inl rfl

theorem hdrEmitStep_busy_or_completes (s : State) :
    (hdrEmitStep s).busy = s.busy ∨ Completes s (hdrEmitStep s) := by
  rcases hdrEmitStep_cases s with ⟨-, e⟩ | ⟨-, -, e⟩ | ⟨-, -, e⟩ | ⟨e, -⟩ <;> rw [e]
  · exact .inr (completes_complete s _)
  · exact .inl rfl
  · exact .inr (completes_complete s _)
  · exact .inl rfl

theorem encodeStep_busy_or_completes (s : State) :
    (encodeStep s).busy = s.busy ∨ Completes s (encodeStep s) := by
  rcases encodeStep_cases s with ⟨-, e⟩ | ⟨-, -, e⟩ | ⟨b, r, -, -, -, e⟩ | ⟨r, -, -, hk, e⟩ |
    ⟨r, -, -, -, -, e⟩ | ⟨b, r, -, -, -, -, e⟩ | ⟨r, -, -, -, e⟩ <;> rw [e]
  · exact .inr (completes_complete s _)
  · exact .inl rfl
  · exact .inl rfl
  · exact .inr (completes_complete_take_end hk _)
  · exact .inl rfl
  · exact .inl rfl
  · exact .inl rfl

theorem decodeStep_busy_or_completes (s : State) :
    (decodeStep s).busy = s.busy ∨ Completes s (decodeStep s) := by
  rcases decodeStep_cases s with ⟨-, -, e⟩ | ⟨c, r, -, -, e⟩ | ⟨r, -, hk, e⟩ | ⟨v, r, -, -, e⟩ |
    ⟨r, -, hk, e⟩ | ⟨-, -, e⟩ | ⟨-, -, e⟩ <;> rw [e]
  · exact .inl rfl
  · exact .inl rfl
  · exact .inr (completes_complete_take_end hk _)
  · exact .inl rfl
  · exact .inr (completes_complete_take_end hk _)
  · exact .inl rfl
  · exact .inl rfl

/-- A command step leaves BUSY as it is, or completes its command. -/
theorem opStep_busy_or_completes (s : State) : (opStep s).busy = s.busy ∨ Completes s (opStep s) := by
  unfold opStep
  split
  next => exact .inr (completes_complete s _)
  next => exact .inr (completes_complete s _)
  next ho => exact hdrParseStep_busy_or_completes ho
  next => exact hdrEmitStep_busy_or_completes s
  next => exact encodeStep_busy_or_completes s
  next => exact decodeStep_busy_or_completes s

/-- A command step after which BUSY = 0 has completed its command. -/
theorem opStep_completes {s : State} (hb : s.busy = true) (h : (opStep s).busy = false) : Completes s (opStep s) := by
  rcases opStep_busy_or_completes s with hsame | hc
  · simp [hsame, hb] at h
  · exact hc

/-- Settles O45: only a running command can end, and `opStep_completes` says what its last step writes. -/
theorem completionIsPrecise : Obligations.CompletionIsPrecise := by
  intro s t i hb e ht
  by_cases hrun : s.op = .cmd i ∧ s.oq = []
  · obtain ⟨ho, hq⟩ := hrun
    cases (exec_running hb ho hq).symm.trans e
    obtain ⟨err, ts, v, et, hts, hv⟩ := opStep_completes hb ht
    rw [et]
    exact ⟨rfl, ho, hq, rfl, hts, hv.imp_right fun ⟨ho', he⟩ => ⟨Op.cmd.inj (ho.symm.trans ho'), he⟩⟩
  · cases (exec_not_running hb hrun).symm.trans e
    simp [hb] at ht

/-! NOP and ILLEGAL (40_control R94, R95). -/

/-- STATUS after a completion with OVR = 0 (10_state R20). -/
theorem State.statusWord_complete {s : State} (ho : s.ovr = false) (e : Err) :
    (s.complete e).statusWord = 0#24 ++ e.code ++ (if s.hdrValid then 0x6#4 else 0x2#4) := by
  simp only [State.statusWord, State.complete_busy, State.complete_done, State.complete_hdrValid, State.complete_ovr,
    State.complete_err, ho]
  cases s.hdrValid <;> cases e <;> rfl

/-- Settles O15: acceptance, then the one command step. -/
theorem nopCompletes : Obligations.NopCompletes := by
  refine ⟨fun s hb ho hq => exec_nop_running hb ho hq, fun s hb hq => ?_⟩
  refine ⟨_, State.complete .none _, exec_nop_idle hb, exec_nop_running rfl rfl hq, rfl, ?_⟩
  rw [State.statusWord_complete (s.accept_ovr _), State.accept_hdrValid]
  cases s.hdrValid <;> rfl

/-- OP holds 0xF exactly for ILLEGAL (10_state R18). -/
theorem Op.code_eq_illegal_iff (o : Op) : o.code = 0xF#4 ↔ o = .illegal := by
  rcases o with i | _
  · cases i <;> decide
  · decide

/-- The one command step of ILLEGAL. -/
theorem blockStep_illegal {s : State} (hb : s.busy = true) (ho : s.op = .illegal) (hq : s.oq = []) :
    blockStep s = .next (s.complete .illegalCommand) := by
  rw [blockStep_command hq hb, opStep, ho]
  rfl

/-- Settles O16: acceptance as ILLEGAL, then its one command step. -/
theorem illegalWordFails : Obligations.IllegalWordFails := by
  refine ⟨fun s hb ho hq => blockStep_illegal hb ((Op.code_eq_illegal_iff _).mp ho) hq,
    fun s w hw => ⟨fun hb hq => ?_, fun hb => writeCmd_busy hb w⟩⟩
  refine ⟨_, _, writeCmd_illegal hb hw, rfl, blockStep_illegal rfl rfl hq, rfl, ?_⟩
  rw [State.statusWord_complete (s.accept_ovr _), State.accept_hdrValid]
  cases s.hdrValid <;> rfl

/-! The frame of a block step (40_control R98). -/

/-- From `s` to `t` the header, H_IDX and the registers of the codec change only under the commands that own them. -/
def WritesOnlyOwn (s t : State) : Prop :=
  (s.op ≠ .cmd .hdrParse → t.hbuf = s.hbuf ∧ t.hdrValid = s.hdrValid) ∧
  (s.op ≠ .cmd .hdrParse → s.op ≠ .cmd .hdrEmit → t.hIdx = s.hIdx) ∧
  (s.op ≠ .cmd .encode → t.ePrev = s.ePrev ∧ t.eCnt = s.eCnt ∧ t.eHave = s.eHave ∧ t.eFin = s.eFin) ∧
  (s.op ≠ .cmd .decode → t.dPhase = s.dPhase ∧ t.dRem = s.dRem ∧ t.dVal = s.dVal)

theorem hdrParseStep_writesOnlyOwn {s : State} (ho : s.op = .cmd .hdrParse) : WritesOnlyOwn s (hdrParseStep s) := by
  rcases hdrParseStep_cases s with ⟨b, r, -, -, e⟩ | ⟨r, -, -, e⟩ | ⟨-, -, e⟩ | ⟨-, -, e⟩ | ⟨e, -⟩ <;>
    simp [WritesOnlyOwn, ho, e]

theorem hdrEmitStep_writesOnlyOwn {s : State} (ho : s.op = .cmd .hdrEmit) : WritesOnlyOwn s (hdrEmitStep s) := by
  rcases hdrEmitStep_cases s with ⟨-, e⟩ | ⟨-, -, e⟩ | ⟨-, -, e⟩ | ⟨e, -⟩ <;> simp [WritesOnlyOwn, ho, e]

theorem encodeStep_writesOnlyOwn {s : State} (ho : s.op = .cmd .encode) : WritesOnlyOwn s (encodeStep s) := by
  rcases encodeStep_cases s with ⟨-, e⟩ | ⟨-, -, e⟩ | ⟨b, r, -, -, -, e⟩ | ⟨r, -, -, -, e⟩ |
    ⟨r, -, -, -, -, e⟩ | ⟨b, r, -, -, -, -, e⟩ | ⟨r, -, -, -, e⟩ <;> simp [WritesOnlyOwn, ho, e]

theorem decodeStep_writesOnlyOwn {s : State} (ho : s.op = .cmd .decode) : WritesOnlyOwn s (decodeStep s) := by
  rcases decodeStep_cases s with ⟨-, -, e⟩ | ⟨c, r, -, -, e⟩ | ⟨r, -, -, e⟩ | ⟨v, r, -, -, e⟩ |
    ⟨r, -, -, e⟩ | ⟨-, -, e⟩ | ⟨-, -, e⟩ <;> simp [WritesOnlyOwn, ho, e]

theorem opStep_writesOnlyOwn (s : State) : WritesOnlyOwn s (opStep s) := by
  unfold opStep
  split
  next => simp [WritesOnlyOwn, illegalStep]
  next => simp [WritesOnlyOwn, nopStep]
  next ho => exact hdrParseStep_writesOnlyOwn ho
  next ho => exact hdrEmitStep_writesOnlyOwn ho
  next ho => exact encodeStep_writesOnlyOwn ho
  next ho => exact decodeStep_writesOnlyOwn ho

/-- Settles O40: a drain writes none of these; a command step writes its own and `opStep_keeps` the rest. -/
theorem blockStepFrame : Obligations.BlockStepFrame := by
  intro s t e
  rcases blockStep_cases s with ⟨b, rest, -, -, e'⟩ | ⟨-, -, e'⟩ | ⟨-, -, e'⟩ | ⟨-, -, e'⟩ <;>
    cases e'.symm.trans e
  · simp
  · simp
  · simp
  · obtain ⟨hheader, hidx, henc, hdec⟩ := opStep_writesOnlyOwn s
    obtain ⟨-, -, htaken, hop, hovr, hhost, hsched, hreads, hin, hout⟩ := opStep_keeps s
    exact ⟨hheader, hidx, henc, hdec, hop, hovr, hin, hout, htaken, hhost, hsched, hreads⟩

end Sys2Proof.Machine

namespace Sys2Proof.Safety

open Sys2Proof.Machine

/-! A supplied command completes (40_control R97). -/

theorem supplied_hdrParse_iff {s : State} (ho : s.op = .cmd .hdrParse) :
    Supplied s ↔ .endTok ∈ s.inq ∨ 54 ≤ s.hIdx.toNat + s.inq.length := by simp [Supplied, ho]

theorem supplied_encode_iff {s : State} (ho : s.op = .cmd .encode) :
    Supplied s ↔ s.eFin = true ∨ .endTok ∈ s.inq := by simp [Supplied, ho]

theorem supplied_decode_iff {s : State} (ho : s.op = .cmd .decode) :
    Supplied s ↔ .endTok ∈ s.inq := by simp [Supplied, ho]

/-- An END behind a `Byte` is still there once the byte is taken. -/
theorem endTok_mem_of_byte {ts rest : List Token} {b : Byte} (h : .endTok ∈ ts) (hk : ts = .byte b :: rest) :
    .endTok ∈ rest := by simpa [hk] using h

/-- A command in progress whose tokens are in `inq` always has a rule enabled. -/
theorem opReady_of_supplied {s : State} (h : MachineInv s) (hs : Supplied s) : opReady s = true := by
  have hi := h.hIdxRange
  have peek (hk : s.inq ≠ []) : s.inPeek.isSome = true := by simpa [State.inPeek] using hk
  unfold opReady
  split
  next => rfl
  next => rfl
  next ho =>
    rcases Nat.lt_or_eq_of_le hi with hlt | heq
    · have hk : s.inq ≠ [] := fun hk => by
        rcases (supplied_hdrParse_iff ho).mp hs with hm | hl
        · simp [hk] at hm
        · simp only [hk, List.length_nil] at hl
          omega
      simp [hdrParseReady, hlt, peek hk]
    · simp [hdrParseReady, heq]
  next => simp [hdrEmitReady, hi]
  next ho =>
    rcases (supplied_encode_iff ho).mp hs with hf | hm
    · simp [encodeReady, hf]
    · simp [encodeReady, peek (List.ne_nil_of_mem hm)]
  next ho => simp [decodeReady, peek (List.ne_nil_of_mem ((supplied_decode_iff ho).mp hs))]

/-- The missing header bytes, or an END, are still there while HDR_PARSE goes on. -/
theorem hdrParseStep_keeps_awaited {s : State} (hs : .endTok ∈ s.inq ∨ 54 ≤ s.hIdx.toNat + s.inq.length)
    (hb : (hdrParseStep s).busy = true) :
    .endTok ∈ (hdrParseStep s).inq ∨ 54 ≤ (hdrParseStep s).hIdx.toNat + (hdrParseStep s).inq.length := by
  rcases hdrParseStep_cases s with ⟨b, r, hi, hk, e⟩ | ⟨r, -, -, e⟩ | ⟨-, -, e⟩ | ⟨-, -, e⟩ | ⟨e, -⟩ <;>
    rw [e] at hb ⊢
  · refine hs.imp (endTok_mem_of_byte · hk) fun hl => ?_
    simp only [hk, State.hIdx_succ_toNat hi, List.length_cons] at hl ⊢
    omega
  · cases hb
  · cases hb
  · cases hb
  · exact hs

/-- ENCODE takes its END only as it sets E_FIN or fails. -/
theorem encodeStep_keeps_awaited {s : State} (hs : s.eFin = true ∨ .endTok ∈ s.inq)
    (hb : (encodeStep s).busy = true) : (encodeStep s).eFin = true ∨ .endTok ∈ (encodeStep s).inq := by
  have taken {b : Byte} {rest : List Token} (hk : s.inq = .byte b :: rest) : s.eFin = true ∨ .endTok ∈ rest :=
    hs.imp_right (endTok_mem_of_byte · hk)
  rcases encodeStep_cases s with ⟨-, e⟩ | ⟨-, -, e⟩ | ⟨b, r, -, -, hk, e⟩ | ⟨r, -, -, -, e⟩ |
    ⟨r, -, -, hk, -, e⟩ | ⟨b, r, -, -, hk, -, e⟩ | ⟨r, -, -, -, e⟩ <;> rw [e] at hb ⊢
  · cases hb
  · exact hs
  · exact taken hk
  · cases hb
  · exact taken hk
  · exact taken hk
  · exact .inl rfl

/-- DECODE takes its END only as it completes. -/
theorem decodeStep_keeps_awaited {s : State} (hs : .endTok ∈ s.inq) (hb : (decodeStep s).busy = true) :
    .endTok ∈ (decodeStep s).inq := by
  rcases decodeStep_cases s with ⟨-, -, e⟩ | ⟨c, r, -, hk, e⟩ | ⟨r, -, -, e⟩ | ⟨v, r, -, hk, e⟩ |
    ⟨r, -, -, e⟩ | ⟨-, -, e⟩ | ⟨-, -, e⟩ <;> rw [e] at hb ⊢
  · exact hs
  · exact endTok_mem_of_byte hs hk
  · cases hb
  · exact endTok_mem_of_byte hs hk
  · cases hb
  · exact hs
  · exact hs

/-- A command that its step leaves in progress is supplied as before. -/
theorem opStep_supplied {s : State} (hs : Supplied s) (hb : (opStep s).busy = true) : Supplied (opStep s) := by
  obtain ⟨-, -, -, hop, -⟩ := opStep_keeps s
  rcases ho : s.op with i | _ <;> rw [ho] at hop
  · cases i with
    | nop => simp [Supplied, hop]
    | hdrParse =>
      have e : opStep s = hdrParseStep s := by rw [opStep, ho]
      rw [supplied_hdrParse_iff hop, e]
      exact hdrParseStep_keeps_awaited ((supplied_hdrParse_iff ho).mp hs) (e ▸ hb)
    | hdrEmit => simp [Supplied, hop]
    | encode =>
      have e : opStep s = encodeStep s := by rw [opStep, ho]
      rw [supplied_encode_iff hop, e]
      exact encodeStep_keeps_awaited ((supplied_encode_iff ho).mp hs) (e ▸ hb)
    | decode =>
      have e : opStep s = decodeStep s := by rw [opStep, ho]
      rw [supplied_decode_iff hop, e]
      exact decodeStep_keeps_awaited ((supplied_decode_iff ho).mp hs) (e ▸ hb)
  · simp [Supplied, hop]

/-- A supplied command in progress of a block that runs on by itself. -/
structure RunningSupplied (s : State) : Prop where
  inv : MachineInv s
  free : Free s
  busy : s.busy = true
  supplied : Supplied s

/-- Each step of it leaves less to do, and the command is in progress and supplied as before, or it has completed. -/
theorem RunningSupplied.step {s : State} (h : RunningSupplied s) :
    ∃ t, step s = .next t ∧ work t < work s ∧ t.op = s.op ∧
      (RunningSupplied t ∨ (t.busy = false ∧ t.done = true ∧ t.oq = [])) := by
  obtain ⟨hinv, hfree, hb, hs⟩ := h
  rcases hq : s.oq with _ | ⟨b, rest⟩
  · have hr : opReady s = true := opReady_of_supplied hinv hs
    have hinv' : MachineInv (opStep s) := hinv.opStep hb hq
    obtain ⟨-, -, -, hop, -, -, hsched, -, -, hdepth⟩ := opStep_keeps s
    refine ⟨_, step_command hfree hb hq hr, (hr ▸ opStep_progress hb).work_lt, hop, ?_⟩
    cases hb' : (opStep s).busy
    · obtain ⟨e, ts, v, et, -⟩ := opStep_completes hb hb'
      exact .inr ⟨rfl, by rw [et]; rfl, hinv'.idleDrained hb'⟩
    · exact .inl ⟨hinv', ⟨hsched.trans hfree.1, hdepth.trans hfree.2⟩, hb', opStep_supplied hs hb'⟩
  · have hroom : s.outRoom = true := by simp [State.outRoom, hasRoom, hfree.2]
    exact ⟨_, step_drain hfree hq, work_drain_lt hq, rfl, .inl ⟨hinv.drain hq hroom, hfree, hb, hs⟩⟩

/-- It completes, by induction on what is left to do. -/
theorem RunningSupplied.completes {s : State} (h : RunningSupplied s) :
    ∃ k t, RunsTo s k t ∧ t.busy = false ∧ t.done = true ∧ t.oq = [] ∧ t.op = s.op := by
  induction hn : work s using Nat.strong_induction_on generalizing s with
  | _ n ih =>
    obtain ⟨u, hu, hlt, hop, hgoes | ⟨hb, hd, hq⟩⟩ := h.step
    · obtain ⟨k, t, hr, hb, hd, hq, hop'⟩ := ih _ (hn ▸ hlt) hgoes rfl
      exact ⟨k + 1, t, .cons hu hr, hb, hd, hq, hop'.trans hop⟩
    · exact ⟨1, u, .cons hu (.refl u), hb, hd, hq, hop⟩

/-- Settles O39: `RunningSupplied.completes`. -/
theorem commandInProgressCompletes : Obligations.CommandInProgressCompletes := fun _ hinv hfree hb hs =>
  RunningSupplied.completes ⟨hinv, hfree, hb, hs⟩

end Sys2Proof.Safety
end

section
/-! PROOFS of the header family. The step rules of HDR_PARSE and HDR_EMIT as equations; the header buffer after several
bytes in a row; the runs of whole commands, by induction on the bytes that are left; and what may change HDR_VALID. -/

namespace Sys2Proof.Machine

/-! The rules of HDR_PARSE (41_header R100). -/

/-- HP_BYTE. -/
theorem hdrParseStep_byte {s : State} {b : Byte} {rest : List Token} (hi : s.hIdx.toNat < 54)
    (hk : s.inq = .byte b :: rest) :
    hdrParseStep s = { s with
      inq := rest, inCount := s.inCount + 1, hIdx := s.hIdx + 1, hbuf := s.hbuf.write s.hIdx.toNat b } := by
  simp [hdrParseStep, hi, State.inPeek, hk, hpByte, State.inTake_of_byte hk]

/-- HP_END. -/
theorem hdrParseStep_end {s : State} {rest : List Token} (hi : s.hIdx.toNat < 54) (hk : s.inq = .endTok :: rest) :
    hdrParseStep s = State.complete .truncatedHeader { s with inq := rest } := by
  simp [hdrParseStep, hi, State.inPeek, hk, State.inTake_of_end hk]

/-- HP_CHECK, a valid signature or not. -/
theorem hdrParseStep_check {s : State} (hi : s.hIdx.toNat = 54) : hdrParseStep s = hpCheck s := by
  simp [hdrParseStep, hi]

theorem hpCheck_valid {s : State} (hs : s.hbuf.signatureValid = true) :
    hpCheck s = State.complete .none { s with hdrValid := true } := if_pos hs

theorem hpCheck_invalid {s : State} (hs : ¬s.hbuf.signatureValid = true) : hpCheck s = s.complete .notABitmap :=
  if_neg hs

/-- HP_CHECK while HDR_VALID = 0, as HDR_PARSE's acceptance leaves it: the signature is HDR_VALID and decides ERR. -/
theorem hpCheck_of_not_hdrValid {s : State} (hv : s.hdrValid = false) :
    hpCheck s = State.complete (if s.hbuf.signatureValid then .none else .notABitmap)
      { s with hdrValid := s.hbuf.signatureValid } := by
  cases hs : s.hbuf.signatureValid
  · simp [hpCheck, hs, State.complete, hv]
  · exact hpCheck_valid hs

theorem Memory.signatureValid_iff (m : Memory) :
    m.signatureValid = true ↔ m.read 0 = 0x42#8 ∧ m.read 1 = 0x4D#8 := by
  simp [Memory.signatureValid]

/-- Settles O17: acceptance, the waits, and the equation of each rule. -/
theorem hdrParseStepRules : Obligations.HdrParseStepRules := by
  refine ⟨fun s hb => exec_hdrParse_idle hb, fun s hb h => ?_, fun s hb ho hq => ?_⟩
  · exact commandWaitsUnchanged s .hdrParse hb (.inr (h.imp_right fun hw => .inl ⟨rfl, hw⟩))
  · rw [exec_hdrParse_running hb ho hq]
    refine ⟨fun b rest hm hi hk => ?_, fun rest hi hk => ?_, fun hi h0 h1 => ?_, fun hi hne => ?_⟩
    · rw [hdrParseStep_byte hi hk]
      exact ⟨_, rfl, rfl, State.hIdx_succ_toNat hi, Memory.read_write hm⟩
    · rw [hdrParseStep_end hi hk]
      rfl
    · rw [hdrParseStep_check hi, hpCheck_valid (s.hbuf.signatureValid_iff.mpr ⟨h0, h1⟩)]
      rfl
    · rw [hdrParseStep_check hi, hpCheck_invalid (mt s.hbuf.signatureValid_iff.mp hne)]
      rfl

/-! The rules of HDR_EMIT (41_header R108). -/

/-- HE_GATE. -/
theorem hdrEmitStep_gate {s : State} (hv : s.hdrValid = false) : hdrEmitStep s = s.complete .noHeader := by
  simp [hdrEmitStep, hv]

/-- HE_BYTE. -/
theorem hdrEmitStep_byte {s : State} (hv : s.hdrValid = true) (hi : s.hIdx.toNat < 54) (hq : s.oq = []) :
    hdrEmitStep s = { s with oq := [s.hbuf.read s.hIdx.toNat], hIdx := s.hIdx + 1 } := by
  simp [hdrEmitStep, hv, hi, heByte, State.outPush, hq]

/-- HE_DONE. -/
theorem hdrEmitStep_done {s : State} (hv : s.hdrValid = true) (hi : s.hIdx.toNat = 54) :
    hdrEmitStep s = s.complete .none := by
  simp [hdrEmitStep, hv, hi]

/-- Settles O18: acceptance, the wait for the drain step, and the equation of each rule. -/
theorem hdrEmitStepRules : Obligations.HdrEmitStepRules := by
  refine ⟨fun s hb => exec_hdrEmit_idle hb, fun s hb hq => commandWaitsUnchanged s .hdrEmit hb (.inr (.inl hq)),
    fun s hb ho hq => ?_⟩
  rw [exec_hdrEmit_running hb ho hq]
  refine ⟨fun hv => ?_, fun hv hi => ?_, fun hv hi => ?_⟩
  · rw [hdrEmitStep_gate hv]
    rfl
  · rw [hdrEmitStep_byte hv hi hq]
    exact ⟨_, rfl, rfl, State.hIdx_succ_toNat hi⟩
  · rw [hdrEmitStep_done hv hi]
    rfl

/-! What reaches the OUT port (41_header R103). -/

theorem hdrParseStep_keeps_out (s : State) : (hdrParseStep s).oq = s.oq ∧ (hdrParseStep s).out = s.out := by
  rcases hdrParseStep_cases s with ⟨b, r, -, -, e⟩ | ⟨r, -, -, e⟩ | ⟨-, -, e⟩ | ⟨-, -, e⟩ | ⟨e, -⟩ <;> rw [e] <;>
    exact ⟨rfl, rfl⟩

/-- Settles O21: acceptance and waiting touch neither `oq` nor `out`, and neither do the command steps in question. -/
theorem headerOutputGated : Obligations.HeaderOutputGated := by
  refine fun s t => ⟨fun e => ?_, fun e hv => ?_⟩ <;> cases e
  · rcases command_cases (.cmd .hdrParse) (fun t => { t with hdrValid := false, hIdx := 0 }) hdrParseStep s with
      ⟨-, e⟩ | ⟨-, -, -, e⟩ | ⟨-, -, e⟩ <;> rw [e]
    · exact ⟨rfl, rfl⟩
    · exact hdrParseStep_keeps_out s
    · exact ⟨rfl, rfl⟩
  · rcases command_cases (.cmd .hdrEmit) (fun t => { t with hIdx := 0 }) hdrEmitStep s with
      ⟨-, e⟩ | ⟨-, -, -, e⟩ | ⟨-, -, e⟩ <;> rw [e]
    · exact ⟨rfl, rfl⟩
    · rw [hdrEmitStep_gate hv]
      exact ⟨rfl, rfl⟩
    · exact ⟨rfl, rfl⟩

/-! Several bytes in a row (41_header R104). -/

/-- `hbuf` after the bytes `bs` have been stored from address 0 on, first byte first. -/
def Memory.store (m : Memory) (bs : List Byte) : Memory :=
  bs.zipIdx.foldl (fun m c => m.write c.2 c.1) m

theorem Memory.store_concat (m : Memory) (bs : List Byte) (b : Byte) :
    m.store (bs ++ [b]) = (m.store bs).write bs.length b := by
  simp [Memory.store, List.zipIdx_append]

theorem Memory.store_wf {m : Memory} (hm : m.wf) {bs : List Byte} (hl : bs.length ≤ 54) : (m.store bs).wf := by
  induction bs using List.reverseRecOn with
  | nil => exact hm
  | append_singleton bs b ih =>
    rw [List.length_append, List.length_singleton] at hl
    rw [Memory.store_concat]
    exact Memory.write_wf (ih (by omega)) (by omega)

theorem Memory.read_store {m : Memory} (hm : m.wf) {bs : List Byte} (hl : bs.length ≤ 54) (k : Nat) :
    (m.store bs).read k = if k < bs.length then bs.getD k 0 else m.read k := by
  induction bs using List.reverseRecOn with
  | nil => rfl
  | append_singleton bs b ih =>
    rw [List.length_append, List.length_singleton] at hl ⊢
    have hl' : bs.length ≤ 54 := by omega
    rw [Memory.store_concat, Memory.read_write (Memory.store_wf hm hl'), ih hl']
    rcases Nat.lt_trichotomy k bs.length with h | rfl | h
    · rw [if_neg h.ne, if_pos h, if_pos (by omega), List.getD_append _ _ _ _ h]
    · simp
    · rw [if_neg h.ne', if_neg (by omega), if_neg (by omega)]

theorem take_two_eq_iff {bs : List Byte} (hl : 2 ≤ bs.length) (x y : Byte) :
    bs.take 2 = [x, y] ↔ bs.getD 0 0 = x ∧ bs.getD 1 0 = y := by
  match bs, hl with
  | b :: c :: bs, _ => simp

/-- The signature test on a stored header sees its first two bytes (41_header R105). -/
theorem Memory.signatureValid_store_iff {m : Memory} (hm : m.wf) {hdr : List Byte} (hl : hdr.length = 54) :
    (m.store hdr).signatureValid = true ↔ hdr.take 2 = [0x42#8, 0x4D#8] := by
  rw [Memory.signatureValid_iff, Memory.read_store hm hl.le, Memory.read_store hm hl.le, if_pos (by omega),
    if_pos (by omega), take_two_eq_iff (by omega)]

/-! HDR_VALID (41_header R106). -/

/-- A block step changes HDR_VALID only where HP_CHECK finds the signature. -/
theorem blockStep_hdrValid {s t : State} (e : blockStep s = .next t) :
    t.hdrValid = s.hdrValid ∨
      (s.busy = true ∧ s.op = .cmd .hdrParse ∧ s.oq = [] ∧ s.hIdx.toNat = 54 ∧ s.hbuf.signatureValid = true ∧
        t = State.complete .none { s with hdrValid := true }) := by
  by_cases ho : s.op = .cmd .hdrParse
  · rcases blockStep_cases s with ⟨b, r, -, -, e'⟩ | ⟨-, -, e'⟩ | ⟨-, -, e'⟩ | ⟨hq, hb, e'⟩ <;> cases e'.symm.trans e
    · exact .inl rfl
    · exact .inl rfl
    · exact .inl rfl
    · rw [show opStep s = hdrParseStep s by rw [opStep, ho]]
      rcases hdrParseStep_cases s with ⟨b, r, -, -, e⟩ | ⟨r, -, -, e⟩ | ⟨hi, hs, e⟩ | ⟨-, -, e⟩ | ⟨e, -⟩ <;> rw [e]
      · exact .inl rfl
      · exact .inl rfl
      · exact .inr ⟨hb, ho, hq, hi, hs, rfl⟩
      · exact .inl rfl
      · exact .inl rfl
  · obtain ⟨hheader, -⟩ := blockStepFrame s t e
    exact .inl (hheader ho).2

/-- A CMD write changes HDR_VALID only as the acceptance of HDR_PARSE, which clears it (40_control R89). -/
theorem writeCmd_hdrValid {s t : State} {w : Word} (e : writeCmd w s = .next t) :
    t.hdrValid = s.hdrValid ∨ (t.hdrValid = false ∧ s.busy = false ∧ w = encode .hdrParse) := by
  rcases writeCmd_cases w s with ⟨-, e'⟩ | ⟨-, _, -, e'⟩ | ⟨-, -, e'⟩ | ⟨hb, hd, e'⟩ | ⟨-, -, e'⟩ | ⟨-, -, e'⟩ |
    ⟨-, -, e'⟩ <;> cases e'.symm.trans e
  · exact .inl rfl
  · exact .inl rfl
  · exact .inl rfl
  · exact .inr ⟨rfl, hb, (decode_eq_legal_iff w _).mp hd⟩
  · exact .inl rfl
  · exact .inl rfl
  · exact .inl rfl

/-- A host statement changes HDR_VALID only as a reset or as a write of the HDR_PARSE word to CMD of an idle block. -/
theorem hostStmt_hdrValid {s t : State} {st : HostStmt} {rest : List HostStmt} (e : hostStmt st rest s = .next t) :
    t.hdrValid = s.hdrValid ∨ (t.hdrValid = false ∧ (st = .reset ∨
      ∃ off w, st = .wr off w ∧ off.toNat < 4 ∧ s.busy = false ∧ w = encode .hdrParse)) := by
  rcases hostStmt_cases st rest s with ⟨off, w, hst, e'⟩ | ⟨hst, e'⟩ | ⟨_, -, -, e'⟩ | ⟨-, -, e'⟩ | ⟨_, _, e'⟩ <;>
    rw [e'] at e
  · rcases regWrite_cases off w { s with host := rest } with ⟨ho, ew⟩ | ⟨-, ew⟩ <;> rw [ew] at e
    · exact (writeCmd_hdrValid e).imp_right fun ⟨hv, hb, hw⟩ => ⟨hv, .inr ⟨off, w, hst, ho, hb, hw⟩⟩
    · cases e
      exact .inl rfl
  · cases e
    exact .inr ⟨rfl, .inl hst⟩
  · cases e
    exact .inl rfl
  · cases e
    exact .inl rfl
  · cases e
    exact .inl rfl

/-- Settles O25: a block step only sets HDR_VALID, by HP_CHECK; a host step only clears it. -/
theorem hdrValidLife : Obligations.HdrValidLife := by
  intro s t e
  rcases step_cases s with ⟨ht, e'⟩ | ⟨-, -, e'⟩ | ⟨st, rest, ht, hh, e'⟩ <;> rw [e'] at e
  · rcases blockStep_hdrValid e with hsame | ⟨hb, ho, hq, hi, hs, rfl⟩
    · simp +contextual [hsame]
    · exact ⟨fun _ _ => ⟨ht, hb, ho, hq, hi, hs, rfl, rfl, rfl⟩, fun _ hv => by cases hv⟩
  · cases e
    simp +contextual
  · rcases hostStmt_hdrValid e with hsame | ⟨hv, hcause⟩
    · simp +contextual [hsame]
    · refine ⟨fun _ hv' => by simp [hv] at hv', fun _ _ => ⟨ht, ?_⟩⟩
      rcases hcause with rfl | ⟨off, w, rfl, ho, hb, hw⟩
      · exact .inl ⟨rest, hh⟩
      · exact .inr ⟨off, w, rest, hh, ho, hb, hw⟩

end Sys2Proof.Machine

namespace Sys2Proof.Safety

open Sys2Proof.Machine

/-! HDR_PARSE as a whole. -/

/-- The block `s` with HDR_PARSE in progress that has taken the bytes `bs`, `rest` being what `inq` still holds. -/
def hdrParseAfter (s : State) (bs : List Byte) (rest : List Token) : State :=
  { s.accept (.cmd .hdrParse) with
    hdrValid := false, inq := rest, inCount := BitVec.ofNat 32 bs.length, hIdx := BitVec.ofNat 6 bs.length,
    hbuf := s.hbuf.store bs }

theorem exec_hdrParse_eq_after {s : State} (hb : s.busy = false) :
    exec .hdrParse s = .next (hdrParseAfter s [] s.inq) := exec_hdrParse_idle hb

theorem hdrParseAfter_hIdx_toNat (s : State) {bs : List Byte} (hl : bs.length ≤ 54) (rest : List Token) :
    (hdrParseAfter s bs rest).hIdx.toNat = bs.length := by
  simp only [hdrParseAfter, BitVec.toNat_ofNat]
  omega

theorem hdrParseReady_of_token {s : State} {k : Token} {rest : List Token} (hi : s.hIdx.toNat < 54)
    (hk : s.inq = k :: rest) : hdrParseReady s = true := by
  simp [hdrParseReady, hi, State.inPeek, hk]

section
variable {s : State} {bs : List Byte} {rest : List Token} (hf : Free s) (hq : s.oq = [])
include hf hq

theorem step_hdrParseAfter (hr : hdrParseReady (hdrParseAfter s bs rest) = true) :
    step (hdrParseAfter s bs rest) = .next (hdrParseStep (hdrParseAfter s bs rest)) :=
  step_command (s := hdrParseAfter s bs rest) hf rfl hq hr

theorem hdrParseAfter_takes_byte (hl : bs.length < 54) (b : Byte) :
    step (hdrParseAfter s bs (.byte b :: rest)) = .next (hdrParseAfter s (bs ++ [b]) rest) := by
  have hi := hdrParseAfter_hIdx_toNat s hl.le (.byte b :: rest)
  have hi' : (hdrParseAfter s bs (.byte b :: rest)).hIdx.toNat < 54 := hi.trans_lt hl
  rw [step_hdrParseAfter hf hq (hdrParseReady_of_token hi' rfl), hdrParseStep_byte hi' rfl, hi]
  simp [hdrParseAfter, Memory.store_concat, BitVec.ofNat_add]

/-- HDR_PARSE takes the bytes at the head of `inq` one a step, while they fit in `hbuf`. -/
theorem hdrParseAfter_takes_bytes (hl : bs.length ≤ 54) :
    RunsTo (hdrParseAfter s [] (tokens bs ++ rest)) bs.length (hdrParseAfter s bs rest) := by
  induction bs using List.reverseRecOn generalizing rest with
  | nil => exact .refl _
  | append_singleton bs b ih =>
    rw [List.length_append, List.length_singleton] at hl ⊢
    have hrun := ih (rest := .byte b :: rest) (by omega)
    rw [show tokens (bs ++ [b]) ++ rest = tokens bs ++ .byte b :: rest by simp [tokens]]
    exact hrun.trans (.cons (hdrParseAfter_takes_byte hf hq (by omega) b) (.refl _))

/-- An END before the 54th byte: the bytes before it, then HP_END. -/
theorem hdrParse_runs_to_end (hl : bs.length < 54) :
    RunsTo (hdrParseAfter s [] (tokens bs ++ .endTok :: rest)) (bs.length + 1)
      ((hdrParseAfter s bs rest).complete .truncatedHeader) := by
  have hi : (hdrParseAfter s bs (.endTok :: rest)).hIdx.toNat < 54 :=
    (hdrParseAfter_hIdx_toNat s hl.le _).trans_lt hl
  have hstep := step_hdrParseAfter hf hq (hdrParseReady_of_token hi rfl)
  rw [hdrParseStep_end hi rfl] at hstep
  exact (hdrParseAfter_takes_bytes hf hq hl.le).trans (.cons hstep (.refl _))

/-- A whole header: its 54 bytes, then HP_CHECK. -/
theorem hdrParse_runs_to_check (hl : bs.length = 54) :
    RunsTo (hdrParseAfter s [] (tokens bs ++ rest)) 55
      (State.complete (if (s.hbuf.store bs).signatureValid then .none else .notABitmap)
        { hdrParseAfter s bs rest with hdrValid := (s.hbuf.store bs).signatureValid }) := by
  have hi := (hdrParseAfter_hIdx_toNat s hl.le rest).trans hl
  have hstep := step_hdrParseAfter hf hq (bs := bs) (rest := rest) (by simp [hdrParseReady, hi])
  rw [hdrParseStep_check hi, hpCheck_of_not_hdrValid rfl] at hstep
  have hrun := hdrParseAfter_takes_bytes hf hq (rest := rest) hl.le
  rw [hl] at hrun
  exact hrun.trans (.cons hstep (.refl _))

end

/-- Settles O20: `hdrParse_runs_to_end`, and what the stored bytes read as. -/
theorem hdrParseTruncated : Obligations.HdrParseTruncated := by
  intro s hdr rest hinv hf hb hl hk
  have hrun := hdrParse_runs_to_end hf (hinv.idleDrained hb) hl (rest := rest)
  exact ⟨_, _, exec_hdrParse_eq_after hb, hk ▸ hrun, rfl, Memory.read_store hinv.hbufWf hl.le⟩

/-- Settles O19: `hdrParse_runs_to_check`, HP_CHECK deciding by the first two HP_CHECK deciding bytes of the header. -/
theorem hdrParseWholeHeader : Obligations.HdrParseWholeHeader := by
  intro s hdr rest hinv hf hb hl hk
  have hrun := hdrParse_runs_to_check hf (hinv.idleDrained hb) hl (rest := rest)
  have hsig := Memory.signatureValid_store_iff hinv.hbufWf hl
  refine ⟨_, _, exec_hdrParse_eq_after hb, hk ▸ hrun, ?_, fun k h => ?_, hsig, if_congr hsig rfl rfl⟩
  · simp [hdrParseAfter, hl, State.accept, State.complete]
  · exact (Memory.read_store hinv.hbufWf hl.le k).trans (if_pos (hl ▸ h))

/-! HDR_EMIT as a whole. -/

/-- The block `s` with HDR_EMIT in progress that has delivered `n` bytes of `hbuf`. -/
def hdrEmitAfter (s : State) (n : Nat) : State :=
  { s.accept (.cmd .hdrEmit) with
    hIdx := BitVec.ofNat 6 n, outCount := BitVec.ofNat 32 n, out := s.out ++ (List.range n).map s.hbuf.read }

theorem exec_hdrEmit_eq_after {s : State} (hb : s.busy = false) : exec .hdrEmit s = .next (hdrEmitAfter s 0) := by
  simp [exec_hdrEmit_idle hb, hdrEmitAfter, State.accept]

theorem hdrEmitAfter_hIdx_toNat (s : State) {n : Nat} (hn : n ≤ 54) : (hdrEmitAfter s n).hIdx.toNat = n := by
  simp only [hdrEmitAfter, BitVec.toNat_ofNat]
  omega

section
variable {s : State} {n : Nat} (hf : Free s) (hq : s.oq = []) (hv : s.hdrValid = true)
include hf hq

theorem step_hdrEmitAfter (hn : n ≤ 54) : step (hdrEmitAfter s n) = .next (hdrEmitStep (hdrEmitAfter s n)) :=
  step_command (s := hdrEmitAfter s n) hf rfl hq
    (show hdrEmitReady _ = true by simp [hdrEmitReady, hdrEmitAfter_hIdx_toNat s hn, hn])

include hv

/-- HE_BYTE, and the drain step that delivers the byte. -/
theorem hdrEmitAfter_delivers_byte (hn : n < 54) : RunsTo (hdrEmitAfter s n) 2 (hdrEmitAfter s (n + 1)) := by
  have hi := hdrEmitAfter_hIdx_toNat s hn.le
  have hbyte := step_hdrEmitAfter hf hq hn.le
  rw [hdrEmitStep_byte (s := hdrEmitAfter s n) hv (hi.trans_lt hn) hq, hi] at hbyte
  refine .cons hbyte (.cons (step_drain hf rfl) ?_)
  simp [State.drain, hdrEmitAfter, List.range_succ, BitVec.ofNat_add, hq, RunsTo.refl]

/-- HDR_EMIT delivers the first `n` bytes of `hbuf` in `2 * n` steps. -/
theorem hdrEmitAfter_delivers_bytes (hn : n ≤ 54) : RunsTo (hdrEmitAfter s 0) (2 * n) (hdrEmitAfter s n) := by
  induction n with
  | zero => exact .refl _
  | succ n ih => exact (ih (by omega)).trans (hdrEmitAfter_delivers_byte hf hq hv hn)

/-- The 54 bytes of `hbuf`, then HE_DONE. -/
theorem hdrEmit_runs_to_done : RunsTo (hdrEmitAfter s 0) 109 ((hdrEmitAfter s 54).complete .none) := by
  have hdone := step_hdrEmitAfter hf hq (n := 54) le_rfl
  rw [hdrEmitStep_done (s := hdrEmitAfter s 54) hv rfl] at hdone
  exact (hdrEmitAfter_delivers_bytes hf hq hv le_rfl).trans (.cons hdone (.refl _))

end

/-- Settles O22: acceptance, then `hdrEmit_runs_to_done`. -/
theorem hdrEmitWholeHeader : Obligations.HdrEmitWholeHeader := fun _ hinv hf hb hv =>
  ⟨_, _, exec_hdrEmit_eq_after hb, hdrEmit_runs_to_done hf (hinv.idleDrained hb) hv, rfl⟩

/-- The 54 bytes read back from a buffer that holds a whole header are that header. -/
theorem map_read_eq_header {m : Memory} {hdr : List Byte} (hl : hdr.length = 54)
    (hread : ∀ k < 54, m.read k = hdr.getD k 0) : (List.range 54).map m.read = hdr := by
  refine List.ext_getElem (by simp [hl]) fun k hk hk' => ?_
  rw [List.getElem_map, List.getElem_range, hread k (hl ▸ hk'), List.getD_eq_getElem]

/-- Settles O24: HDR_PARSE leaves a valid header in `hbuf` of an idle block, and HDR_EMIT delivers what is there. -/
theorem headerPassthrough : Obligations.HeaderPassthrough := by
  intro s hdr rest hinv hf hb hl hbm hk
  obtain ⟨a, p, ha, hap, ep, hread, hvalid, -⟩ := hdrParseWholeHeader s hdr rest hinv hf hb hl hk
  have hpb : p.busy = false := by rw [ep]
  have hpq : p.oq = [] := by rw [ep]; exact hinv.idleDrained hb
  have hpf : Free p := by rw [ep]; exact hf
  have hpv : p.hdrValid = true := hvalid.mpr hbm
  refine ⟨a, p, _, _, ha, hap, exec_hdrEmit_eq_after hpb, hdrEmit_runs_to_done hpf hpq hpv, ?_, ?_, ?_⟩
  · calc p.out ++ (List.range 54).map p.hbuf.read = p.out ++ hdr := by rw [map_read_eq_header hl hread]
      _ = s.out ++ hdr := by rw [ep]
  · rw [State.statusWord_complete rfl, show (hdrEmitAfter p 54).hdrValid = true from hpv]
    rfl
  · show p.inq = rest
    rw [ep]

end Sys2Proof.Safety
end

section
/-! PROOFS of the encoder family. The step rules of ENCODE as equations; its output as a function of the buffer, by runs
and by length; what the ENCODE in progress owes, which no step but a reset takes back; and the run of a whole ENCODE, by
induction on the bytes that are left. -/

namespace Sys2Proof.Machine

/-! The rules of ENCODE (42_encoder R118). -/

/-- EN_FIRST. -/
theorem encodeStep_first {s : State} {b : Byte} {rest : List Token} (hf : s.eFin = false) (hh : s.eHave = false)
    (hk : s.inq = .byte b :: rest) :
    encodeStep s = { s with inq := rest, inCount := s.inCount + 1, ePrev := b, eCnt := 1, eHave := true } := by
  simp [encodeStep, hf, State.inPeek, hk, hh, enFirst, State.inTake_of_byte hk]

/-- EN_EMPTY. -/
theorem encodeStep_empty {s : State} {rest : List Token} (hf : s.eFin = false) (hh : s.eHave = false)
    (hk : s.inq = .endTok :: rest) : encodeStep s = State.complete .emptyBuffer { s with inq := rest } := by
  simp [encodeStep, hf, State.inPeek, hk, hh, State.inTake_of_end hk]

/-- EN_SAME. -/
theorem encodeStep_same {s : State} {rest : List Token} (hf : s.eFin = false) (hh : s.eHave = true)
    (hk : s.inq = .byte s.ePrev :: rest) (hc : s.eCnt.toNat < 255) :
    encodeStep s = { s with inq := rest, inCount := s.inCount + 1, eCnt := s.eCnt + 1 } := by
  simp [encodeStep, hf, State.inPeek, hk, hh, hc, enSame, State.inTake_of_byte hk]

/-- EN_FLUSH. -/
theorem encodeStep_flush {s : State} {b : Byte} {rest : List Token} (hf : s.eFin = false) (hh : s.eHave = true)
    (hk : s.inq = .byte b :: rest) (hc : ¬(b = s.ePrev ∧ s.eCnt.toNat < 255)) :
    encodeStep s = { s with
      inq := rest, inCount := s.inCount + 1, oq := s.oq ++ [s.eCnt, s.ePrev], ePrev := b, eCnt := 1 } := by
  simp [encodeStep, hf, State.inPeek, hk, hh, hc, enFlush, pushPair, State.outPush, State.inTake_of_byte hk]

/-- EN_LAST. -/
theorem encodeStep_last {s : State} {rest : List Token} (hf : s.eFin = false) (hh : s.eHave = true)
    (hk : s.inq = .endTok :: rest) :
    encodeStep s = { s with inq := rest, oq := s.oq ++ [s.eCnt, s.ePrev], eFin := true } := by
  simp [encodeStep, hf, State.inPeek, hk, hh, enLast, pushPair, State.outPush, State.inTake_of_end hk]

/-- EN_DONE. -/
theorem encodeStep_done {s : State} (hf : s.eFin = true) : encodeStep s = s.complete .none := if_pos hf

/-- A run is not to be extended by a byte that differs from it, nor where it is full (42_encoder R119). -/
theorem not_same_of_flush {b p c : Byte} (h : b ≠ p ∨ c = 255#8) : ¬(b = p ∧ c.toNat < 255) := by
  rintro ⟨rfl, hc⟩
  rcases h with h | rfl
  · exact h rfl
  · exact absurd hc (by decide)

/-- Settles O26: acceptance, the waits, and the equation of each rule. -/
theorem encodeStepRules : Obligations.EncodeStepRules := by
  refine ⟨fun s hb => exec_encode_idle hb, fun s hb h => ?_, fun s hb ho hq hfin => ?_⟩
  · refine commandWaitsUnchanged s .encode hb (.inr ?_)
    exact h.imp_right fun hw => .inr (.inl ⟨rfl, hw⟩)
  · have unfinished (hh : s.eHave = false) : s.eFin = false :=
      Bool.eq_false_iff.mpr fun hf => Bool.eq_false_iff.mp hh (hfin hf)
    rw [exec_encode_running hb ho hq]
    refine ⟨fun b rest hh hk => ?_, fun rest hh hk => ?_, fun rest hh hf hk hc => ?_, fun b rest hh hf hk hc => ?_,
      fun rest hh hf hk => ?_, fun hf => ?_⟩
    · rw [encodeStep_first (unfinished hh) hh hk]
    · rw [encodeStep_empty (unfinished hh) hh hk]
      rfl
    · rw [encodeStep_same hf hh hk hc]
    · rw [encodeStep_flush hf hh hk (not_same_of_flush hc), hq, List.nil_append]
    · rw [encodeStep_last hf hh hk, hq, List.nil_append]
    · rw [encodeStep_done hf]
      rfl

/-! Counts (42_encoder R119, R120). -/

/-- A held run has at least one byte (10_state R16). -/
theorem one_le_eCnt {s : State} (h : Safety.MachineInv s) (hh : s.eHave = true) : 1 ≤ s.eCnt.toNat := by
  have hne := h.runCounted hh
  bv_omega

/-- Settles O27: only a running ENCODE does anything, and then by the rule it takes. -/
theorem encoderCountsInRange : Obligations.EncoderCountsInRange := by
  intro s t h hb e
  by_cases hrun : s.op = .cmd .encode ∧ s.oq = []
  · obtain ⟨ho, hq⟩ := hrun
    cases (exec_encode_running hb ho hq).symm.trans e
    rcases encodeStep_cases s with ⟨-, e'⟩ | ⟨-, -, e'⟩ | ⟨b, r, -, -, -, e'⟩ | ⟨r, -, -, -, e'⟩ |
      ⟨r, -, -, -, hc, e'⟩ | ⟨b, r, -, hh, -, -, e'⟩ | ⟨r, -, hh, -, e'⟩ <;> rw [e']
    · exact ⟨.inl rfl, .inl rfl⟩
    · exact ⟨.inl rfl, .inl rfl⟩
    · exact ⟨.inl rfl, .inr (.inl rfl)⟩
    · exact ⟨.inl rfl, .inl rfl⟩
    · exact ⟨.inl rfl, .inr (.inr ⟨by bv_omega, rfl⟩)⟩
    · exact ⟨.inr ⟨s.eCnt, s.ePrev, rfl, one_le_eCnt h hh, rfl⟩, .inr (.inl rfl)⟩
    · exact ⟨.inr ⟨s.eCnt, s.ePrev, rfl, one_le_eCnt h hh, rfl⟩, .inl rfl⟩
  · cases (exec_not_running hb hrun).symm.trans e
    exact ⟨.inl rfl, .inl rfl⟩

/-! The header is not the codec's (42_encoder R126, 43_decoder R136). -/

/-- The same state with another header. -/
def State.withHeader (m : Memory) (v : Bool) (s : State) : State := { s with hbuf := m, hdrValid := v }

/-- A function of the state that neither reads nor writes the header. -/
def IgnoresHeader (f : State → State) : Prop := ∀ m v s, f (s.withHeader m v) = (f s).withHeader m v

theorem encodeStep_ignoresHeader : IgnoresHeader encodeStep := by
  intro m v s
  have hkeep := encodeStep_update s s.hbuf s.hdrValid s.inDepth s.outDepth
  exact (encodeStep_update s m v s.inDepth s.outDepth).trans (congrArg (State.withHeader m v) hkeep).symm

theorem decodeStep_ignoresHeader : IgnoresHeader decodeStep := by
  intro m v s
  have hkeep := decodeStep_update s s.hbuf s.hdrValid s.inDepth s.outDepth
  exact (decodeStep_update s m v s.inDepth s.outDepth).trans (congrArg (State.withHeader m v) hkeep).symm

/-- A command ignores the header if its initialisation and its command step do. -/
theorem command_ignoresHeader {init body : State → State} (hinit : IgnoresHeader init) (hbody : IgnoresHeader body)
    (o : Op) : IgnoresHeader (command o init body) := by
  intro m v s
  have hrun : (s.withHeader m v).running o = s.running o := rfl
  unfold command
  rw [hrun, show (s.withHeader m v).busy = s.busy from rfl]
  split_ifs
  · exact hbody m v s
  · rfl
  · exact hinit m v (s.accept o)

theorem exec_ignoresHeader {i : Instr} (hi : i = .nop ∨ i = .encode ∨ i = .decode) :
    ∃ f, IgnoresHeader f ∧ ∀ s, exec i s = .next (f s) := by
  rcases hi with rfl | rfl | rfl <;> refine ⟨_, ?_, fun _ => rfl⟩
  · exact command_ignoresHeader (fun _ _ _ => rfl) (fun _ _ _ => rfl) _
  · exact command_ignoresHeader (fun _ _ _ => rfl) encodeStep_ignoresHeader _
  · exact command_ignoresHeader (fun _ _ _ => rfl) decodeStep_ignoresHeader _

/-- Settles O41: `exec_ignoresHeader`; for the header as it stands it says that the next state keeps the header. -/
theorem codecIgnoresHeader : Obligations.CodecIgnoresHeader := by
  intro s m v i hi
  obtain ⟨f, hf, e⟩ := exec_ignoresHeader hi
  have hkeep : f s = (f s).withHeader s.hbuf s.hdrValid := hf s.hbuf s.hdrValid s
  refine ⟨f s, e s, (congrArg State.hbuf hkeep).trans rfl, (congrArg State.hdrValid hkeep).trans rfl, ?_⟩
  exact (e _).trans (congrArg Host.Outcome.next (hf m v s))

/-! ENC_F by maximal runs (42_encoder R117). -/

theorem encF_err_of_ne_nil {buf : List Byte} (h : buf ≠ []) : (encF buf).2 = .none := by
  cases buf with
  | nil => exact absurd rfl h
  | cons b bs => rfl

@[simp] theorem pairBytes_length (c : Nat) (v : Byte) : (pairBytes c v).length = 2 := rfl

/-- A run that fits in one pair. -/
theorem seg_of_le {n : Nat} (hn : n ≤ 255) (v : Byte) : seg v n = pairBytes n v := by
  simp [seg, show (n - 1) / 255 = 0 by omega]

/-- A longer run begins with a full pair. -/
theorem seg_add_full {n : Nat} (hn : 1 ≤ n) (v : Byte) : seg v (255 + n) = pairBytes 255 v ++ seg v n := by
  have hq : (255 + n - 1) / 255 = (n - 1) / 255 + 1 := by omega
  have hr : 255 + n - 255 * ((n - 1) / 255 + 1) = n - 255 * ((n - 1) / 255) := by omega
  simp only [seg, hq, hr, List.replicate_succ, List.flatten_cons, List.append_assoc]

/-- A run of `n` bytes gives `n / 255` pairs, rounded up. -/
theorem seg_length {n : Nat} (hn : 1 ≤ n) (v : Byte) : (seg v n).length = 2 * ((n + 254) / 255) := by
  have hfull (q : Nat) : (List.replicate q (pairBytes 255 v)).flatten.length = q * 2 := by simp
  rw [seg, List.length_append, hfull, pairBytes_length]
  omega

/-- An encoder that holds `c` bytes `v` and takes `m` more writes the segment of all of them as the run ends, and then
what ENC_F gives for the rest. -/
theorem encGo_run {v : Byte} {ys : List Byte} (hys : ys.head? ≠ some v) (m : Nat) {c : Nat} (hlo : 1 ≤ c)
    (hhi : c ≤ 255) : encGo v c (List.replicate m v ++ ys) = seg v (c + m) ++ (encF ys).1 := by
  induction m generalizing c with
  | zero =>
    rw [Nat.add_zero, seg_of_le hhi]
    cases ys with
    | nil => simp [encGo, encF]
    | cons y ys =>
      have hy : y ≠ v := fun hy => hys (congrArg some hy)
      simp [encGo, encF, hy]
  | succ m ih =>
    rw [List.replicate_succ, List.cons_append, encGo]
    by_cases hc : c < 255
    · rw [if_pos ⟨rfl, hc⟩, ih (c := c + 1) (by omega) hc, Nat.add_right_comm, Nat.add_assoc]
    · obtain rfl : c = 255 := by omega
      rw [if_neg (fun h => hc h.2), ih le_rfl (by decide), Nat.add_comm m 1, seg_add_full (by omega),
        List.append_assoc]

/-- The bytes of a buffer given by its runs. -/
def ofRuns (runs : List (Byte × Nat)) : List Byte := runs.flatMap fun r => List.replicate r.2 r.1

/-- The runs are maximal: none is empty and no two neighbours have the same value. -/
structure Maximal (runs : List (Byte × Nat)) : Prop where
  nonempty : ∀ r ∈ runs, 1 ≤ r.2
  differ : runs.IsChain fun a b => a.1 ≠ b.1

theorem Maximal.tail {r : Byte × Nat} {runs : List (Byte × Nat)} (h : Maximal (r :: runs)) : Maximal runs :=
  ⟨fun r' hr => h.nonempty r' (List.mem_cons_of_mem _ hr), h.differ.tail⟩

/-- After a maximal run comes another value, or nothing. -/
theorem Maximal.head?_ne {v : Byte} {n : Nat} {runs : List (Byte × Nat)} (h : Maximal ((v, n) :: runs)) :
    (ofRuns runs).head? ≠ some v := by
  cases runs with
  | nil => simp [ofRuns]
  | cons r runs =>
    obtain ⟨w, k⟩ := r
    have hk : 1 ≤ k := h.nonempty (w, k) (by simp)
    have hne : v ≠ w := (List.isChain_cons_cons.mp h.differ).1
    obtain ⟨k, rfl⟩ := Nat.exists_eq_add_of_le' hk
    simpa [ofRuns, List.replicate_succ] using hne.symm

theorem encF_ofRuns {runs : List (Byte × Nat)} (h : Maximal runs) :
    (encF (ofRuns runs)).1 = runs.flatMap fun r => seg r.1 r.2 := by
  induction runs with
  | nil => rfl
  | cons r runs ih =>
    obtain ⟨v, n⟩ := r
    obtain ⟨n, rfl⟩ := Nat.exists_eq_add_of_le (h.nonempty (v, n) (by simp))
    rw [List.flatMap_cons, ← ih h.tail, ← encGo_run h.head?_ne n le_rfl (by decide), Nat.add_comm 1 n]
    simp [ofRuns, List.replicate_succ, encF]

theorem ofRuns_ne_nil {runs : List (Byte × Nat)} (hne : runs ≠ []) (h : ∀ r ∈ runs, 1 ≤ r.2) : ofRuns runs ≠ [] := by
  obtain ⟨r, hr⟩ := List.exists_mem_of_ne_nil _ hne
  have hlen : List.replicate r.2 r.1 ≠ [] := by simpa using Nat.ne_of_gt (h r hr)
  exact fun hnil => hlen (List.flatMap_eq_nil_iff.mp hnil r hr)

/-- Settles O30: `encF_ofRuns`, a buffer that has a run not being empty. -/
theorem encodeSegmentForm : Obligations.EncodeSegmentForm := fun _ hne hlen hchain =>
  Prod.ext (encF_ofRuns ⟨hlen, hchain⟩) (encF_err_of_ne_nil (ofRuns_ne_nil hne hlen))

/-! The size of the output (42_encoder R125). -/

theorem encGo_length_even (p : Byte) (c : Nat) (xs : List Byte) : (encGo p c xs).length % 2 = 0 := by
  fun_induction encGo p c xs with
  | case1 => simp
  | case2 p c x xs _ ih => exact ih
  | case3 p c x xs _ ih => simp [ih]

/-- A pair for the run in hand, and at most one more for each byte to come. -/
theorem encGo_length_le (p : Byte) (c : Nat) (xs : List Byte) : (encGo p c xs).length ≤ 2 * (xs.length + 1) := by
  fun_induction encGo p c xs with
  | case1 => simp
  | case2 p c x xs _ ih => simp only [List.length_cons]; omega
  | case3 p c x xs _ ih => simp only [List.length_append, pairBytes_length, List.length_cons]; omega

/-- A pair holds at most 255 bytes. -/
theorem le_encGo_length (p : Byte) {c : Nat} (xs : List Byte) (hc : c ≤ 255) :
    2 * ((c + xs.length + 254) / 255) ≤ (encGo p c xs).length := by
  fun_induction encGo p c xs with
  | case1 => simp only [List.length_nil, pairBytes_length]; omega
  | case2 p c x xs h ih =>
    have := ih h.2
    simp only [List.length_cons]
    omega
  | case3 p c x xs _ ih =>
    have := ih (by decide)
    simp only [List.length_append, pairBytes_length, List.length_cons]
    omega

theorem encF_ofRuns_length {runs : List (Byte × Nat)} (h : Maximal runs) :
    (encF (ofRuns runs)).1.length = 2 * (runs.map fun r => (r.2 + 254) / 255).sum := by
  rw [encF_ofRuns h, List.length_flatMap, ← List.sum_map_mul_left]
  exact congrArg List.sum (List.map_congr_left fun r hr => seg_length (h.nonempty r hr) r.1)

/-- Settles O31: the three bounds on `encGo`, and `encF_ofRuns_length`. -/
theorem encodeOutputSize : Obligations.EncodeOutputSize := by
  intro buf hne
  obtain ⟨b, bs, rfl⟩ := List.exists_cons_of_ne_nil hne
  refine ⟨encGo_length_even b 1 bs, encGo_length_le b 1 bs, ?_, fun runs hlen hchain hbuf => ?_⟩
  · have hle := le_encGo_length b (c := 1) bs (by decide)
    rwa [Nat.add_comm 1] at hle
  · rw [hbuf]
    exact encF_ofRuns_length ⟨hlen, hchain⟩

end Sys2Proof.Machine

namespace Sys2Proof.Safety

open Sys2Proof.Machine

/-! What an ENCODE in progress is bound to deliver (42_encoder R127). -/

/-- The pair of the run in hand, as EN_FLUSH and EN_LAST queue it. -/
theorem pairBytes_toNat (c v : Byte) : pairBytes c.toNat v = [c, v] := by simp [pairBytes]

/-- What an ENCODE that has not met END will still write for the tokens `ts`: `v` says whether it holds a run, of `c`
bytes `p`. -/
def encDue (v : Bool) (p : Byte) (c : Nat) (ts : List Token) : List Byte :=
  if v then encOwed p c ts
  else match ts with
    | .byte b :: ts => encOwed b 1 ts
    | _ => []

@[simp] theorem encDue_held (p : Byte) (c : Nat) (ts : List Token) : encDue true p c ts = encOwed p c ts := rfl

@[simp] theorem encDue_first (p : Byte) (c : Nat) (b : Byte) (ts : List Token) :
    encDue false p c (.byte b :: ts) = encOwed b 1 ts := rfl

@[simp] theorem encDue_nil (p : Byte) (c : Nat) : encDue false p c [] = [] := rfl

@[simp] theorem encDue_end (p : Byte) (c : Nat) (ts : List Token) : encDue false p c (.endTok :: ts) = [] := rfl

theorem encDue_append (v : Bool) (p : Byte) (c : Nat) (ts us : List Token) :
    encDue v p c ts <+: encDue v p c (ts ++ us) := by
  cases v
  · rcases ts with _ | ⟨b | _, ts⟩
    · exact List.nil_prefix
    · exact encOwed_append b 1 ts us
    · exact List.nil_prefix
  · exact encOwed_append p c ts us

/-- An ENCODE is in progress and has not met END. -/
structure EncodeUnfinished (s : State) : Prop where
  busy : s.busy = true
  op : s.op = .cmd .encode
  fin : s.eFin = false

theorem encPromise_unfinished {s : State} (h : EncodeUnfinished s) :
    encPromise s = s.out ++ (s.oq ++ encDue s.eHave s.ePrev s.eCnt.toNat s.inq) := by
  rw [encPromise, if_pos ⟨h.busy, h.op, h.fin⟩, ← List.append_assoc]
  rfl

/-- Once END is met or the command has completed, only `oq` is still to be delivered. -/
theorem encPromise_finished {s : State} (h : s.busy = false ∨ s.eFin = true) : encPromise s = s.out ++ s.oq := by
  have hn : ¬(s.busy = true ∧ s.op = .cmd .encode ∧ s.eFin = false) := by
    rintro ⟨hb, -, hf⟩
    rcases h with h | h
    · simp [h] at hb
    · simp [h] at hf
  rw [encPromise, if_neg hn, List.append_nil]

/-- The drain step moves a byte from `oq` to `out`. -/
theorem encPromise_drain {s : State} {b : Byte} {rest : List Byte} (hq : s.oq = b :: rest) :
    encPromise (s.drain b rest) = encPromise s := by
  have hmove : s.out ++ [b] ++ rest = s.out ++ s.oq := by rw [hq, List.append_assoc, List.singleton_append]
  exact congrArg (· ++ _) hmove

/-- Where an unfinished ENCODE goes on, the promise is kept if what is queued is taken off what is due. -/
theorem encPromise_eq_of_due {s t : State} (hs : EncodeUnfinished s) (ht : EncodeUnfinished t) (ho : t.out = s.out)
    (h : t.oq ++ encDue t.eHave t.ePrev t.eCnt.toNat t.inq = s.oq ++ encDue s.eHave s.ePrev s.eCnt.toNat s.inq) :
    encPromise t = encPromise s := by
  rw [encPromise_unfinished hs, encPromise_unfinished ht, ho, h]

/-- Where only more becomes due, the promise is extended. -/
theorem encPromise_extends_of_due {s t : State} (hs : EncodeUnfinished s) (ht : EncodeUnfinished t)
    (ho : t.out = s.out) (hq : t.oq = s.oq)
    (h : encDue s.eHave s.ePrev s.eCnt.toNat s.inq <+: encDue t.eHave t.ePrev t.eCnt.toNat t.inq) :
    encPromise s <+: encPromise t := by
  rw [encPromise_unfinished hs, encPromise_unfinished ht, ho, hq]
  exact (List.prefix_append_right_inj _).mpr ((List.prefix_append_right_inj _).mpr h)

/-- Where it ends, the promise is kept if what was due is queued. -/
theorem encPromise_eq_of_finished {s t : State} (hs : EncodeUnfinished s) (ht : t.busy = false ∨ t.eFin = true)
    (ho : t.out = s.out) (h : t.oq = s.oq ++ encDue s.eHave s.ePrev s.eCnt.toNat s.inq) :
    encPromise t = encPromise s := by
  rw [encPromise_unfinished hs, encPromise_finished ht, ho, h]

/-- Each rule of ENCODE queues what it takes off what is due. -/
theorem encPromise_encodeStep {s : State} (hb : s.busy = true) (ho : s.op = .cmd .encode) :
    encPromise (encodeStep s) = encPromise s := by
  rcases encodeStep_cases s with ⟨hf, e⟩ | ⟨-, -, e⟩ | ⟨b, r, hf, hh, hk, e⟩ | ⟨r, hf, hh, hk, e⟩ |
    ⟨r, hf, hh, hk, hc, e⟩ | ⟨b, r, hf, hh, hk, hc, e⟩ | ⟨r, hf, hh, hk, e⟩ <;> rw [e]
  · rw [encPromise_finished (.inr hf), encPromise_finished (.inl rfl)]
    rfl
  · exact encPromise_eq_of_due ⟨hb, ho, hf⟩ ⟨hb, ho, hf⟩ rfl (by simp [hh, hk])
  · exact encPromise_eq_of_finished ⟨hb, ho, hf⟩ (.inl rfl) rfl (by simp [hh, hk])
  · have hwrap : (s.eCnt.toNat + 1) % 256 = s.eCnt.toNat + 1 := Nat.mod_eq_of_lt (by omega)
    exact encPromise_eq_of_due ⟨hb, ho, hf⟩ ⟨hb, ho, hf⟩ rfl (by simp [hh, hk, encOwed, hc, hwrap])
  · exact encPromise_eq_of_due ⟨hb, ho, hf⟩ ⟨hb, ho, hf⟩ rfl (by simp [hh, hk, encOwed, hc, pairBytes_toNat])
  · exact encPromise_eq_of_finished ⟨hb, ho, hf⟩ (.inr rfl) rfl (by simp [hh, hk, encOwed, pairBytes_toNat])

theorem encPromise_blockStep {s t : State} (hb : s.busy = true) (ho : s.op = .cmd .encode)
    (e : blockStep s = .next t) : encPromise t = encPromise s := by
  rcases blockStep_cases s with ⟨b, rest, hq, -, e'⟩ | ⟨-, -, e'⟩ | ⟨-, -, e'⟩ | ⟨-, -, e'⟩ <;>
    cases e'.symm.trans e
  · exact encPromise_drain hq
  · rfl
  · rfl
  · rw [show opStep s = encodeStep s by rw [opStep, ho]]
    exact encPromise_encodeStep hb ho

/-- What a host step that is no reset does while BUSY = 1 (`hostStmt_busy`): it may add tokens, for which more may be
due. -/
theorem encPromise_pushed {s : State} (hb : s.busy = true) (ho : s.op = .cmd .encode) (us : List Token) (o : Bool)
    (k : Nat) (hs : List HostStmt) (r : List (RegAddr × Word)) :
    encPromise s <+:
      encPromise { s with inq := s.inq ++ us, ovr := o, outTaken := k, host := hs, reads := r } := by
  cases hf : s.eFin
  · exact encPromise_extends_of_due ⟨hb, ho, hf⟩ ⟨hb, ho, rfl⟩ rfl rfl (encDue_append _ _ _ s.inq us)
  · rw [encPromise_finished (.inr hf), encPromise_finished (.inr rfl)]

theorem encPromise_hostStmt {s t : State} {st : HostStmt} {rest : List HostStmt} (hb : s.busy = true)
    (ho : s.op = .cmd .encode) (hr : st ≠ .reset) (e : hostStmt st rest s = .next t) :
    encPromise s <+: encPromise t := by
  obtain ⟨us, o, k, hs, r, rfl⟩ := hostStmt_busy hb hr e
  exact encPromise_pushed hb ho us o k hs r

/-- Settles O29: a block step keeps the promise, a host step that is no reset extends it. -/
theorem encodePromiseKept : Obligations.EncodePromiseKept := by
  intro s t _ hb ho e hr
  rcases step_cases s with ⟨ht, e'⟩ | ⟨ht, -, e'⟩ | ⟨st, rest, ht, hh, e'⟩ <;> rw [e'] at e
  · have hkept : encPromise t = encPromise s := encPromise_blockStep (s := s.popTurn) hb ho e
    exact ⟨hkept ▸ List.prefix_rfl, fun _ => hkept⟩
  · cases e
    exact ⟨List.prefix_rfl, fun _ => rfl⟩
  · have hst : st ≠ .reset := fun h => hr ht rest (h ▸ hh)
    exact ⟨encPromise_hostStmt (s := s.popTurn) hb ho hst e, fun h => by simp [ht] at h⟩

/-! ENCODE as a whole. -/

/-- The block `s` with ENCODE in progress that has taken `n` bytes, delivered the pairs `o` and holds a run of `c` bytes
`p`, `rest` being what `inq` still holds. -/
def encodeAfter (s : State) (n : Nat) (o : List Byte) (p c : Byte) (rest : List Token) : State :=
  { s.accept (.cmd .encode) with
    inq := rest, oq := [], inCount := BitVec.ofNat 32 n, outCount := BitVec.ofNat 32 o.length, out := s.out ++ o,
    ePrev := p, eCnt := c, eHave := true, eFin := false }

/-- The same block once it has met END and delivered the last pair, and so completes. -/
def encodeDone (s : State) (n : Nat) (o : List Byte) (p c : Byte) (rest : List Token) : State :=
  State.complete .none { encodeAfter s n o p c rest with eFin := true }

/-- A free block with ENCODE in progress takes the rule that is enabled. -/
theorem step_encode {s : State} (hf : Free s) (hb : s.busy = true) (ho : s.op = .cmd .encode) (hq : s.oq = [])
    (hr : encodeReady s = true) : step s = .next (encodeStep s) := by
  have h := step_command hf hb hq (show opReady s = true by rw [opReady, ho]; exact hr)
  rwa [opStep, ho] at h

section
variable {s : State} {n : Nat} {o : List Byte} {p c : Byte} {rest : List Token} (hf : Free s)
include hf

theorem step_encodeAfter (k : Token) :
    step (encodeAfter s n o p c (k :: rest)) = .next (encodeStep (encodeAfter s n o p c (k :: rest))) :=
  step_encode hf rfl rfl rfl rfl

/-- A queued pair is delivered in two drain steps. -/
theorem encodeAfter_delivers_pair (x y : Byte) (f : Bool) :
    RunsTo { encodeAfter s n o p c rest with oq := [x, y], eFin := f } 2
      { encodeAfter s n (o ++ [x, y]) p c rest with eFin := f } := by
  refine .cons (step_drain hf rfl) (.cons (step_drain hf rfl) ?_)
  simp [State.drain, encodeAfter, BitVec.ofNat_add, BitVec.add_assoc, RunsTo.refl]

/-- EN_SAME. -/
theorem encodeAfter_takes_same (hc : c.toNat < 255) :
    step (encodeAfter s n o p c (.byte p :: rest)) = .next (encodeAfter s (n + 1) o p (c + 1) rest) := by
  rw [step_encodeAfter hf, encodeStep_same rfl rfl rfl hc]
  simp [encodeAfter, BitVec.ofNat_add]

/-- EN_FLUSH, and the drain steps that deliver the pair. -/
theorem encodeAfter_flushes {b : Byte} (hc : ¬(b = p ∧ c.toNat < 255)) :
    RunsTo (encodeAfter s n o p c (.byte b :: rest)) 3 (encodeAfter s (n + 1) (o ++ [c, p]) b 1 rest) := by
  have hstep : step (encodeAfter s n o p c (.byte b :: rest)) =
      .next { encodeAfter s (n + 1) o b 1 rest with oq := [c, p], eFin := false } := by
    rw [step_encodeAfter hf, encodeStep_flush rfl rfl rfl hc]
    simp [encodeAfter, BitVec.ofNat_add]
  exact .cons hstep (encodeAfter_delivers_pair hf c p false)

/-- EN_LAST, the drain steps that deliver the last pair, and EN_DONE. -/
theorem encodeAfter_ends :
    RunsTo (encodeAfter s n o p c (.endTok :: rest)) 4 (encodeDone s n (o ++ [c, p]) p c rest) := by
  have hlast : step (encodeAfter s n o p c (.endTok :: rest)) =
      .next { encodeAfter s n o p c rest with oq := [c, p], eFin := true } := by
    rw [step_encodeAfter hf, encodeStep_last rfl rfl rfl]
    rfl
  have hdone : step { encodeAfter s n (o ++ [c, p]) p c rest with eFin := true } =
      .next (encodeDone s n (o ++ [c, p]) p c rest) :=
    Eq.trans (step_encode hf rfl rfl rfl rfl) (congrArg Host.Outcome.next (encodeStep_done rfl))
  exact .cons hlast ((encodeAfter_delivers_pair hf c p true).trans (.cons hdone (.refl _)))

/-- Once a run is in hand, the block writes what ENC_F has left to write. -/
theorem encodeAfter_runs_to_done (buf : List Byte) :
    ∃ k p' c', RunsTo (encodeAfter s n o p c (tokens buf ++ .endTok :: rest)) k
      (encodeDone s (n + buf.length) (o ++ encGo p c.toNat buf) p' c' rest) := by
  induction buf generalizing n o p c with
  | nil =>
    rw [encGo, pairBytes_toNat]
    exact ⟨4, p, c, encodeAfter_ends hf⟩
  | cons b bs ih =>
    rw [encGo, List.length_cons, Nat.add_comm bs.length, ← Nat.add_assoc]
    by_cases hc : b = p ∧ c.toNat < 255
    · obtain ⟨k, p', c', hrun⟩ := ih (n := n + 1) (o := o) (p := p) (c := c + 1)
      have hsucc : (c + 1).toNat = c.toNat + 1 := by bv_omega
      rw [hsucc] at hrun
      obtain ⟨rfl, hc⟩ := hc
      rw [if_pos ⟨rfl, hc⟩]
      exact ⟨k + 1, p', c', .cons (encodeAfter_takes_same hf hc) hrun⟩
    · obtain ⟨k, p', c', hrun⟩ := ih (n := n + 1) (o := o ++ [c, p]) (p := b) (c := 1)
      rw [if_neg hc, pairBytes_toNat, ← List.append_assoc]
      exact ⟨3 + k, p', c', (encodeAfter_flushes hf hc).trans hrun⟩

end

/-- The block `s` right after the acceptance of ENCODE. -/
def encodeAccepted (s : State) : State := { s.accept (.cmd .encode) with eHave := false, eFin := false }

section
variable {s : State} {rest : List Token} (hf : Free s) (hq : s.oq = [])
include hf hq

theorem step_encodeAccepted {k : Token} (hk : s.inq = k :: rest) :
    step (encodeAccepted s) = .next (encodeStep (encodeAccepted s)) :=
  step_encode (s := encodeAccepted s) hf rfl rfl hq (by simp [encodeReady, State.inPeek, encodeAccepted, hk])

theorem encodeAccepted_takes_first {b : Byte} (hk : s.inq = .byte b :: rest) :
    step (encodeAccepted s) = .next (encodeAfter s 1 [] b 1 rest) := by
  rw [step_encodeAccepted hf hq hk, encodeStep_first (s := encodeAccepted s) rfl rfl hk]
  simp [encodeAccepted, encodeAfter, State.accept, hq]

theorem encodeAccepted_fails_empty (hk : s.inq = .endTok :: rest) :
    step (encodeAccepted s) = .next (State.complete .emptyBuffer { encodeAccepted s with inq := rest }) := by
  rw [step_encodeAccepted hf hq hk, encodeStep_empty (s := encodeAccepted s) rfl rfl hk]

end

/-- Settles O28: EN_EMPTY for the empty buffer; else EN_FIRST, and then `encodeAfter_runs_to_done`. -/
theorem encodeAgreesWithReference : Obligations.EncodeAgreesWithReference := by
  intro s buf rest hf hb hq hk
  cases buf with
  | nil =>
    refine ⟨_, 1, _, exec_encode_idle hb, .cons (encodeAccepted_fails_empty hf hq hk) (.refl _), ?_⟩
    simp [State.complete, encodeAccepted, State.accept, encF]
  | cons b bs =>
    obtain ⟨k, p, c, hrun⟩ := encodeAfter_runs_to_done hf (n := 1) (o := []) (p := b) (c := 1) (rest := rest) bs
    refine ⟨_, k + 1, _, exec_encode_idle hb, .cons (encodeAccepted_takes_first hf hq hk) hrun, ?_⟩
    simp [encodeDone, encodeAfter, State.complete, State.accept, encF, hq, Nat.add_comm]

end Sys2Proof.Safety
end

section
/-! PROOFS of the decoder family. The step rules of DECODE as equations; DEC_F on sequences of pairs and on what ENC_F
writes; what the DECODE in progress owes, which no step but a reset takes back; and the run of a whole DECODE, by
induction on the pairs that are left. -/

namespace Sys2Proof.Machine

/-! The rules of DECODE (43_decoder R131). -/

/-- DE_CNT. -/
theorem decodeStep_cnt {s : State} {c : Byte} {rest : List Token} (hp : s.dPhase = .count)
    (hk : s.inq = .byte c :: rest) :
    decodeStep s = { s with inq := rest, inCount := s.inCount + 1, dRem := c, dPhase := .value } := by
  simp [decodeStep, hp, State.inPeek, hk, deCnt, State.inTake_of_byte hk]

/-- DE_STOP. -/
theorem decodeStep_stop {s : State} {rest : List Token} (hp : s.dPhase = .count) (hk : s.inq = .endTok :: rest) :
    decodeStep s = State.complete .none { s with inq := rest } := by
  simp [decodeStep, hp, State.inPeek, hk, State.inTake_of_end hk]

/-- DE_VAL. -/
theorem decodeStep_val {s : State} {v : Byte} {rest : List Token} (hp : s.dPhase = .value)
    (hk : s.inq = .byte v :: rest) :
    decodeStep s = { s with inq := rest, inCount := s.inCount + 1, dVal := v, dPhase := .emit } := by
  simp [decodeStep, hp, State.inPeek, hk, deVal, State.inTake_of_byte hk]

/-- DE_TRUNC. -/
theorem decodeStep_trunc {s : State} {rest : List Token} (hp : s.dPhase = .value) (hk : s.inq = .endTok :: rest) :
    decodeStep s = State.complete .truncatedStream { s with inq := rest } := by
  simp [decodeStep, hp, State.inPeek, hk, State.inTake_of_end hk]

/-- DE_OUT. -/
theorem decodeStep_out {s : State} (hp : s.dPhase = .emit) (hr : s.dRem ≠ 0) :
    decodeStep s = { s with oq := s.oq ++ [s.dVal], dRem := s.dRem - 1 } := by
  have hpos : s.dRem.toNat > 0 := Nat.pos_of_ne_zero fun h => hr (BitVec.eq_of_toNat_eq h)
  simp [decodeStep, hp, hpos, deOut, State.outPush]

/-- DE_NEXT. -/
theorem decodeStep_next {s : State} (hp : s.dPhase = .emit) (hr : s.dRem = 0) :
    decodeStep s = { s with dPhase := .count } := by
  simp [decodeStep, hp, hr, deNext]

/-- Settles O32: acceptance, the waits, and the equation of each rule. -/
theorem decodeStepRules : Obligations.DecodeStepRules := by
  refine ⟨fun s hb => exec_decode_idle hb, fun s hb h => ?_, fun s hb ho hq => ?_⟩
  · refine commandWaitsUnchanged s .decode hb (.inr ?_)
    exact h.imp_right fun hw => .inr (.inr ⟨rfl, hw⟩)
  · rw [exec_decode_running hb ho hq]
    refine ⟨fun c rest hp hk => ?_, fun rest hp hk => ?_, fun v rest hp hk => ?_, fun rest hp hk => ?_,
      fun hp hr => ?_, fun hp hr => ?_⟩
    · rw [decodeStep_cnt hp hk]
    · rw [decodeStep_stop hp hk]
      rfl
    · rw [decodeStep_val hp hk]
    · rw [decodeStep_trunc hp hk]
      rfl
    · rw [decodeStep_out hp hr, hq, List.nil_append]
    · rw [decodeStep_next hp hr]

/-! DEC_F on whole streams (43_decoder R130). -/

/-- A sequence of pairs expands pair by pair, whatever follows it. -/
theorem decF_pairs_append (pairs : List (Byte × Byte)) (tail : List Byte) :
    decF (pairs.flatMap (fun p => [p.1, p.2]) ++ tail) =
      (pairs.flatMap (fun p => List.replicate p.1.toNat p.2) ++ (decF tail).1, (decF tail).2) := by
  induction pairs with
  | nil => rfl
  | cons p pairs ih =>
    obtain ⟨c, v⟩ := p
    simp only [List.flatMap_cons, List.cons_append, List.nil_append, decF, ih, List.append_assoc]

/-- Settles O35: `decF_pairs_append`, where nothing or a lone count byte follows. -/
theorem decodeEveryPairSequence : Obligations.DecodeEveryPairSequence := by
  refine fun pairs => ⟨?_, fun c => ?_⟩
  · simpa [decF] using decF_pairs_append pairs []
  · simpa [decF] using decF_pairs_append pairs [c]

/-- A pair of the encoder, whose count fits in a byte, expands to the run it stands for. -/
theorem decF_pairBytes_append {c : Nat} (hc : c ≤ 255) (v : Byte) (tail : List Byte) :
    decF (pairBytes c v ++ tail) = (List.replicate c v ++ (decF tail).1, (decF tail).2) := by
  have hwrap : (BitVec.ofNat 8 c).toNat = c := by simp; omega
  simp [pairBytes, decF, hwrap]

/-- What an encoder that holds `c` bytes `p` writes for the bytes `xs` expands to all of them. -/
theorem decF_encGo (p : Byte) {c : Nat} (xs : List Byte) (hc : c ≤ 255) :
    decF (encGo p c xs) = (List.replicate c p ++ xs, .none) := by
  fun_induction encGo p c xs with
  | case1 p c => simpa [decF] using decF_pairBytes_append hc p []
  | case2 p c x xs h ih =>
    obtain ⟨rfl, hlt⟩ := h
    rw [ih hlt, List.replicate_succ', List.append_assoc, List.singleton_append]
  | case3 p c x xs _ ih =>
    rw [decF_pairBytes_append hc, ih (by decide), List.replicate_one, List.singleton_append]

/-- Settles O36: ENC_F of a buffer `b :: bs` is what an encoder that holds one byte `b` writes for `bs`. -/
theorem decodeInvertsEncode : Obligations.DecodeInvertsEncode := by
  intro buf hne
  obtain ⟨b, bs, rfl⟩ := List.exists_cons_of_ne_nil hne
  exact ⟨rfl, decF_encGo b bs (by decide)⟩

end Sys2Proof.Machine

namespace Sys2Proof.Safety

open Sys2Proof.Machine

/-! What a DECODE in progress is bound to deliver (43_decoder R139). -/

/-- What a decoder in phase `p`, with `r` copies of `v` in hand, will still write for the tokens `ts`. In phase VALUE
the count byte `r` stands before them, as if it had not been taken. -/
def decDue (p : Phase) (r v : Byte) (ts : List Token) : List Byte :=
  match p with
  | .count => decOwed ts
  | .value => decOwed (.byte r :: ts)
  | .emit => List.replicate r.toNat v ++ decOwed ts

theorem decDue_append (p : Phase) (r v : Byte) (ts us : List Token) : decDue p r v ts <+: decDue p r v (ts ++ us) := by
  cases p with
  | count => exact decOwed_append ts us
  | value => exact decOwed_append (.byte r :: ts) us
  | emit => exact (List.prefix_append_right_inj _).mpr (decOwed_append ts us)

theorem decPromise_running {s : State} (hb : s.busy = true) (ho : s.op = .cmd .decode) :
    decPromise s = s.out ++ s.oq ++ decDue s.dPhase s.dRem s.dVal s.inq := by
  rw [decPromise, if_pos ⟨hb, ho⟩]
  cases s.dPhase with
  | count => rfl
  | value => rcases s.inq with _ | ⟨_ | _, ts⟩ <;> rfl
  | emit => rfl

/-- Once the command has completed, only `oq` is still to be delivered. -/
theorem decPromise_idle {s : State} (hb : s.busy = false) : decPromise s = s.out ++ s.oq := by
  simp [decPromise, hb]

/-- The drain step moves a byte from `oq` to `out`. -/
theorem decPromise_drain {s : State} {b : Byte} {rest : List Byte} (hq : s.oq = b :: rest) :
    decPromise (s.drain b rest) = decPromise s := by
  have hmove : s.out ++ [b] ++ rest = s.out ++ s.oq := by rw [hq, List.append_assoc, List.singleton_append]
  exact congrArg (· ++ _) hmove

/-- Where the command goes on, the promise is kept if what is queued is taken off what is due. -/
theorem decPromise_eq_of_due {s t : State} (hb : s.busy = true) (ho : s.op = .cmd .decode) (hb' : t.busy = true)
    (ho' : t.op = .cmd .decode) (hout : t.out = s.out)
    (h : t.oq ++ decDue t.dPhase t.dRem t.dVal t.inq = s.oq ++ decDue s.dPhase s.dRem s.dVal s.inq) :
    decPromise t = decPromise s := by
  rw [decPromise_running hb ho, decPromise_running hb' ho', hout, List.append_assoc, h, List.append_assoc]

/-- Where only more becomes due, the promise is extended. -/
theorem decPromise_extends_of_due {s t : State} (hb : s.busy = true) (ho : s.op = .cmd .decode) (hb' : t.busy = true)
    (ho' : t.op = .cmd .decode) (hout : t.out = s.out) (hq : t.oq = s.oq)
    (h : decDue s.dPhase s.dRem s.dVal s.inq <+: decDue t.dPhase t.dRem t.dVal t.inq) :
    decPromise s <+: decPromise t := by
  rw [decPromise_running hb ho, decPromise_running hb' ho', hout, hq]
  exact (List.prefix_append_right_inj _).mpr h

/-- Where it ends, the promise is kept if nothing was due. -/
theorem decPromise_eq_of_completed {s t : State} (hb : s.busy = true) (ho : s.op = .cmd .decode)
    (hb' : t.busy = false) (hout : t.out = s.out) (hq : t.oq = s.oq)
    (h : decDue s.dPhase s.dRem s.dVal s.inq = []) : decPromise t = decPromise s := by
  rw [decPromise_running hb ho, decPromise_idle hb', hout, hq, h, List.append_nil]

/-- Each rule of DECODE queues what it takes off what is due. -/
theorem decPromise_decodeStep {s : State} (hb : s.busy = true) (ho : s.op = .cmd .decode) :
    decPromise (decodeStep s) = decPromise s := by
  rcases decodeStep_cases s with ⟨-, -, e⟩ | ⟨c, r, hp, hk, e⟩ | ⟨r, hp, hk, e⟩ | ⟨v, r, hp, hk, e⟩ |
    ⟨r, hp, hk, e⟩ | ⟨hp, hr, e⟩ | ⟨hp, hr, e⟩ <;> rw [e]
  · exact decPromise_eq_of_due hb ho hb ho rfl (by simp [hp, hk, decDue])
  · exact decPromise_eq_of_completed hb ho rfl rfl rfl (by simp [hp, hk, decDue, decOwed])
  · exact decPromise_eq_of_due hb ho hb ho rfl (by simp [hp, hk, decDue, decOwed])
  · exact decPromise_eq_of_completed hb ho rfl rfl rfl (by simp [hp, hk, decDue, decOwed])
  · have hsucc : s.dRem.toNat = (s.dRem - 1).toNat + 1 := by bv_omega
    refine decPromise_eq_of_due hb ho hb ho rfl ?_
    simp only [hp, decDue, hsucc, List.replicate_succ, List.append_assoc, List.cons_append, List.nil_append]
  · exact decPromise_eq_of_due hb ho hb ho rfl (by simp [hp, hr, decDue])

theorem decPromise_blockStep {s t : State} (hb : s.busy = true) (ho : s.op = .cmd .decode)
    (e : blockStep s = .next t) : decPromise t = decPromise s := by
  rcases blockStep_cases s with ⟨b, rest, hq, -, e'⟩ | ⟨-, -, e'⟩ | ⟨-, -, e'⟩ | ⟨-, -, e'⟩ <;>
    cases e'.symm.trans e
  · exact decPromise_drain hq
  · rfl
  · rfl
  · rw [show opStep s = decodeStep s by rw [opStep, ho]]
    exact decPromise_decodeStep hb ho

/-- A host step that is no reset may add tokens while BUSY = 1 (`hostStmt_busy`), for which more may be due. -/
theorem decPromise_hostStmt {s t : State} {st : HostStmt} {rest : List HostStmt} (hb : s.busy = true)
    (ho : s.op = .cmd .decode) (hr : st ≠ .reset) (e : hostStmt st rest s = .next t) :
    decPromise s <+: decPromise t := by
  obtain ⟨us, o, k, hs, r, rfl⟩ := hostStmt_busy hb hr e
  exact decPromise_extends_of_due hb ho hb ho rfl rfl (decDue_append _ _ _ s.inq us)

/-- Settles O34: a block step keeps the promise, a host step that is no reset extends it. -/
theorem decodePromiseKept : Obligations.DecodePromiseKept := by
  intro s t hb ho e hr
  rcases step_cases s with ⟨ht, e'⟩ | ⟨ht, -, e'⟩ | ⟨st, rest, ht, hh, e'⟩ <;> rw [e'] at e
  · have hkept : decPromise t = decPromise s := decPromise_blockStep (s := s.popTurn) hb ho e
    exact ⟨hkept ▸ List.prefix_rfl, fun _ => hkept⟩
  · cases e
    exact ⟨List.prefix_rfl, fun _ => rfl⟩
  · have hst : st ≠ .reset := fun h => hr ht rest (h ▸ hh)
    exact ⟨decPromise_hostStmt (s := s.popTurn) hb ho hst e, fun h => by simp [ht] at h⟩

/-! DECODE as a whole. -/

/-- The block `s` with DECODE in progress in phase `p` that has taken `n` bytes and delivered the bytes `o`, `r` and `v`
being what D_REM and D_VAL hold and `rest` what `inq` still holds. -/
def decodeAfter (s : State) (n : Nat) (o : List Byte) (p : Phase) (r v : Byte) (rest : List Token) : State :=
  { s.accept (.cmd .decode) with
    inq := rest, oq := [], inCount := BitVec.ofNat 32 n, outCount := BitVec.ofNat 32 o.length, out := s.out ++ o,
    dPhase := p, dRem := r, dVal := v }

/-- Acceptance by an idle block. -/
theorem exec_decode_eq_after {s : State} (hb : s.busy = false) (hq : s.oq = []) :
    exec .decode s = .next (decodeAfter s 0 [] .count s.dRem s.dVal s.inq) := by
  rw [exec_decode_idle hb]
  simp [decodeAfter, State.accept, hq]

section
variable {s : State} {n : Nat} {o : List Byte} {p : Phase} {r v : Byte} {rest : List Token} (hf : Free s)
include hf

/-- A free block takes the rule that is enabled. -/
theorem step_decodeAfter (hr : decodeReady (decodeAfter s n o p r v rest) = true) :
    step (decodeAfter s n o p r v rest) = .next (decodeStep (decodeAfter s n o p r v rest)) :=
  step_command (s := decodeAfter s n o p r v rest) hf rfl rfl hr

/-- DE_CNT. -/
theorem decodeAfter_takes_count (c : Byte) :
    step (decodeAfter s n o .count r v (.byte c :: rest)) = .next (decodeAfter s (n + 1) o .value c v rest) := by
  rw [step_decodeAfter hf rfl, decodeStep_cnt rfl rfl]
  simp [decodeAfter, BitVec.ofNat_add]

/-- DE_VAL. -/
theorem decodeAfter_takes_value (w : Byte) :
    step (decodeAfter s n o .value r v (.byte w :: rest)) = .next (decodeAfter s (n + 1) o .emit r w rest) := by
  rw [step_decodeAfter hf rfl, decodeStep_val rfl rfl]
  simp [decodeAfter, BitVec.ofNat_add]

/-- DE_NEXT. -/
theorem decodeAfter_ends_pair :
    step (decodeAfter s n o .emit 0 v rest) = .next (decodeAfter s n o .count 0 v rest) := by
  rw [step_decodeAfter hf rfl, decodeStep_next rfl rfl]
  rfl

/-- DE_OUT, and the drain step that delivers the copy. -/
theorem decodeAfter_delivers_copy (hr : r ≠ 0) :
    RunsTo (decodeAfter s n o .emit r v rest) 2 (decodeAfter s n (o ++ [v]) .emit (r - 1) v rest) := by
  have hstep : step (decodeAfter s n o .emit r v rest) =
      .next { decodeAfter s n o .emit (r - 1) v rest with oq := [v] } := by
    rw [step_decodeAfter hf rfl, decodeStep_out rfl hr]
    rfl
  refine .cons hstep (.cons (step_drain hf rfl) ?_)
  simp [State.drain, decodeAfter, BitVec.ofNat_add, RunsTo.refl]

/-- In phase EMIT the block delivers the copies it has in hand, and goes on to the next pair. -/
theorem decodeAfter_delivers_copies (m : Nat) (hm : r.toNat = m) :
    RunsTo (decodeAfter s n o .emit r v rest) (2 * m + 1)
      (decodeAfter s n (o ++ List.replicate m v) .count 0 v rest) := by
  induction m generalizing o r with
  | zero =>
    obtain rfl : r = 0 := BitVec.eq_of_toNat_eq hm
    rw [List.replicate_zero, List.append_nil]
    exact .cons (decodeAfter_ends_pair hf) (.refl _)
  | succ m ih =>
    have hrun := ih (o := o ++ [v]) (r := r - 1) (by bv_omega)
    rw [List.append_assoc, List.singleton_append, ← List.replicate_succ] at hrun
    have hjoin := (decodeAfter_delivers_copy hf (o := o) (r := r) (by bv_omega)).trans hrun
    rwa [show 2 + (2 * m + 1) = 2 * (m + 1) + 1 by omega] at hjoin

/-- A whole pair. -/
theorem decodeAfter_expands_pair (c w : Byte) :
    RunsTo (decodeAfter s n o .count r v (.byte c :: .byte w :: rest)) (2 * c.toNat + 3)
      (decodeAfter s (n + 2) (o ++ List.replicate c.toNat w) .count 0 w rest) :=
  .cons (decodeAfter_takes_count hf c)
    (.cons (decodeAfter_takes_value hf w) (decodeAfter_delivers_copies hf c.toNat rfl))

/-- DE_STOP. -/
theorem decodeAfter_stops :
    step (decodeAfter s n o .count r v (.endTok :: rest)) =
      .next (State.complete .none (decodeAfter s n o .count r v rest)) := by
  rw [step_decodeAfter hf rfl, decodeStep_stop rfl rfl]
  rfl

/-- DE_TRUNC. -/
theorem decodeAfter_fails_truncated :
    step (decodeAfter s n o .value r v (.endTok :: rest)) =
      .next (State.complete .truncatedStream (decodeAfter s n o .value r v rest)) := by
  rw [step_decodeAfter hf rfl, decodeStep_trunc rfl rfl]
  rfl

/-- Between two pairs, the block delivers what DEC_F gives for the bytes up to END, and completes with its error. -/
theorem decodeAfter_runs_to_completion (stream : List Byte) :
    ∃ k p' r' v', RunsTo (decodeAfter s n o .count r v (tokens stream ++ .endTok :: rest)) k
      (State.complete (decF stream).2
        (decodeAfter s (n + stream.length) (o ++ (decF stream).1) p' r' v' rest)) := by
  fun_induction decF stream generalizing n o r v with
  | case1 =>
    rw [List.append_nil]
    exact ⟨1, .count, r, v, .cons (decodeAfter_stops hf) (.refl _)⟩
  | case2 c =>
    rw [List.append_nil]
    exact ⟨2, .value, c, v, .cons (decodeAfter_takes_count hf c) (.cons (decodeAfter_fails_truncated hf) (.refl _))⟩
  | case3 c w stream ih =>
    obtain ⟨k, p', r', v', hrun⟩ := ih (n := n + 2) (o := o ++ List.replicate c.toNat w) (r := 0) (v := w)
    rw [List.append_assoc, Nat.add_right_comm] at hrun
    exact ⟨_, p', r', v', (decodeAfter_expands_pair hf c w).trans hrun⟩

end

/-- Settles O33: acceptance, and then `decodeAfter_runs_to_completion`. -/
theorem decodeAgreesWithReference : Obligations.DecodeAgreesWithReference := by
  intro s stream rest hf hb hq hk
  obtain ⟨k, p, r, v, hrun⟩ :=
    decodeAfter_runs_to_completion hf (n := 0) (o := []) (r := s.dRem) (v := s.dVal) (rest := rest) stream
  refine ⟨_, k, _, exec_decode_eq_after hb hq, hk ▸ hrun, ?_⟩
  simp [decodeAfter, State.complete, State.accept, hq]

end Sys2Proof.Safety
end

section
/-! PROOFS of the exceptions family. Every step answers; the code and the cause of each error; and HDR_EMIT without a
valid header. -/

namespace Sys2Proof.Machine

/-! No step traps (60_exceptions R141). -/

/-- A block step drains, waits or takes a command step (40_control R86). -/
theorem blockStep_answers (s : State) : ∃ t, blockStep s = .next t := by
  rcases blockStep_cases s with ⟨b, rest, -, -, e⟩ | ⟨-, -, e⟩ | ⟨-, -, e⟩ | ⟨-, -, e⟩ <;> exact ⟨_, e⟩

/-- A CMD write is dropped or accepted, whatever the word (40_control R87, R88). -/
theorem writeCmd_answers (w : Word) (s : State) : ∃ t, writeCmd w s = .next t := by
  rcases writeCmd_cases w s with ⟨-, e⟩ | ⟨-, _, -, e⟩ | ⟨-, -, e⟩ | ⟨-, -, e⟩ | ⟨-, -, e⟩ | ⟨-, -, e⟩ |
    ⟨-, -, e⟩ <;> exact ⟨_, e⟩

/-- Every offset can be written (20_memory R46). -/
theorem regWrite_answers (off : RegAddr) (w : Word) (s : State) : ∃ t, regWrite off w s = .next t := by
  rcases regWrite_cases off w s with ⟨-, e⟩ | ⟨-, e⟩
  · exact e ▸ writeCmd_answers w s
  · exact ⟨s, e⟩

theorem hostStmt_answers (st : HostStmt) (rest : List HostStmt) (s : State) : ∃ t, hostStmt st rest s = .next t := by
  rcases hostStmt_cases st rest s with ⟨off, w, -, e⟩ | ⟨-, e⟩ | ⟨_, -, -, e⟩ | ⟨-, -, e⟩ | ⟨_, _, e⟩
  · exact e ▸ regWrite_answers off w _
  all_goals exact ⟨_, e⟩

/-- Settles O11: a step is the block's or the host's, and each answers. -/
theorem everyStepAnswers : Obligations.EveryStepAnswers := by
  intro s
  rcases step_cases s with ⟨-, e⟩ | ⟨-, -, e⟩ | ⟨st, rest, -, -, e⟩
  · exact e ▸ blockStep_answers s.popTurn
  · exact ⟨s.popTurn, e⟩
  · exact e ▸ hostStmt_answers st rest s.popTurn

/-! The table of errors (60_exceptions R145). -/

/-- The state in which a completing command step leaves the given value in ERR: the columns "command" and "cause" of
the table of 60_exceptions R145. -/
def ErrorCause (s : State) : Err → Prop
  | .none => s.op ≠ .illegal
  | .notABitmap => s.op = .cmd .hdrParse ∧ s.hIdx.toNat = 54 ∧ ¬(s.hbuf.read 0 = 0x42#8 ∧ s.hbuf.read 1 = 0x4D#8)
  | .truncatedStream => s.op = .cmd .decode ∧ s.dPhase = .value ∧ s.inq.head? = some .endTok
  | .emptyBuffer => s.op = .cmd .encode ∧ s.eHave = false ∧ s.inq.head? = some .endTok
  | .truncatedHeader => s.op = .cmd .hdrParse ∧ s.hIdx.toNat < 54 ∧ s.inq.head? = some .endTok
  | .noHeader => s.op = .cmd .hdrEmit ∧ s.hdrValid = false
  | .illegalCommand => s.op = .illegal

/-- A legal command may complete without an error. -/
theorem errorCause_none {s : State} {i : Instr} (ho : s.op = .cmd i) : ErrorCause s .none := by
  simp [ErrorCause, ho]

theorem hdrParseStep_busy_or_errorCause {s : State} (ho : s.op = .cmd .hdrParse) :
    (hdrParseStep s).busy = s.busy ∨ ErrorCause s (hdrParseStep s).err := by
  rcases hdrParseStep_cases s with ⟨b, r, -, -, e⟩ | ⟨r, hi, hk, e⟩ | ⟨-, -, e⟩ | ⟨hi, hs, e⟩ | ⟨e, -⟩ <;> rw [e]
  · exact .inl rfl
  · exact .inr ⟨ho, hi, hk ▸ rfl⟩
  · exact .inr (errorCause_none ho)
  · exact .inr ⟨ho, hi, mt s.hbuf.signatureValid_iff.mpr (by simp [hs])⟩
  · exact .inl rfl

theorem hdrEmitStep_busy_or_errorCause {s : State} (ho : s.op = .cmd .hdrEmit) :
    (hdrEmitStep s).busy = s.busy ∨ ErrorCause s (hdrEmitStep s).err := by
  rcases hdrEmitStep_cases s with ⟨hv, e⟩ | ⟨-, -, e⟩ | ⟨-, -, e⟩ | ⟨e, -⟩ <;> rw [e]
  · exact .inr ⟨ho, hv⟩
  · exact .inl rfl
  · exact .inr (errorCause_none ho)
  · exact .inl rfl

theorem encodeStep_busy_or_errorCause {s : State} (ho : s.op = .cmd .encode) :
    (encodeStep s).busy = s.busy ∨ ErrorCause s (encodeStep s).err := by
  rcases encodeStep_cases s with ⟨-, e⟩ | ⟨-, -, e⟩ | ⟨b, r, -, -, -, e⟩ | ⟨r, -, hh, hk, e⟩ |
    ⟨r, -, -, -, -, e⟩ | ⟨b, r, -, -, -, -, e⟩ | ⟨r, -, -, -, e⟩ <;> rw [e]
  · exact .inr (errorCause_none ho)
  · exact .inl rfl
  · exact .inl rfl
  · exact .inr ⟨ho, hh, hk ▸ rfl⟩
  · exact .inl rfl
  · exact .inl rfl
  · exact .inl rfl

theorem decodeStep_busy_or_errorCause {s : State} (ho : s.op = .cmd .decode) :
    (decodeStep s).busy = s.busy ∨ ErrorCause s (decodeStep s).err := by
  rcases decodeStep_cases s with ⟨-, -, e⟩ | ⟨c, r, -, -, e⟩ | ⟨r, -, -, e⟩ | ⟨v, r, -, -, e⟩ |
    ⟨r, hp, hk, e⟩ | ⟨-, -, e⟩ | ⟨-, -, e⟩ <;> rw [e]
  · exact .inl rfl
  · exact .inl rfl
  · exact .inr (errorCause_none ho)
  · exact .inl rfl
  · exact .inr ⟨ho, hp, hk ▸ rfl⟩
  · exact .inl rfl
  · exact .inl rfl

/-- A command step leaves BUSY as it is, or completes with a value in ERR whose cause holds. -/
theorem opStep_busy_or_errorCause (s : State) : (opStep s).busy = s.busy ∨ ErrorCause s (opStep s).err := by
  unfold opStep
  split
  next ho => exact .inr ho
  next ho => exact .inr (errorCause_none ho)
  next ho => exact hdrParseStep_busy_or_errorCause ho
  next ho => exact hdrEmitStep_busy_or_errorCause ho
  next ho => exact encodeStep_busy_or_errorCause ho
  next ho => exact decodeStep_busy_or_errorCause ho

/-- Only a command step completes a command, and the value it leaves in ERR has its cause. -/
theorem blockStep_errorCause {s t : State} (e : blockStep s = .next t) (hb : s.busy = true) (ht : t.busy = false) :
    ErrorCause s t.err := by
  have still {u : State} (hu : u.busy = s.busy) (hu' : u.busy = false) : ErrorCause s u.err := by
    simp [hu, hb] at hu'
  rcases blockStep_cases s with ⟨b, rest, -, -, e'⟩ | ⟨-, -, e'⟩ | ⟨-, -, e'⟩ | ⟨-, -, e'⟩ <;>
    cases e'.symm.trans e
  · exact still rfl ht
  · exact still rfl ht
  · exact still rfl ht
  · exact (opStep_busy_or_errorCause s).elim (still · ht) id

/-- Bits 7:4 of the register at offset 0x04 are ERR's code (10_state R20, 20_memory R44). -/
theorem State.regRead_status_err (s : State) : (s.regRead 0x04#8).extractLsb' 4 4 = s.err.code := s.statusWord_err

/-- Settles O54: the code is that of ERR, and the cause is `blockStep_errorCause`; the table is read row by row. -/
theorem errorTable : Obligations.ErrorTable := by
  intro s t e hb ht code
  have hcode : code = t.err.code := t.regRead_status_err
  have hcause := blockStep_errorCause e hb ht
  clear_value code
  generalize t.err = err at hcode hcause ⊢
  cases err <;> exact ⟨hcode, hcause⟩

/-! NoHeader (60_exceptions R151, 41_header R109). -/

/-- Settles O23: acceptance, which leaves HDR_VALID as it is, then HE_GATE. -/
theorem hdrEmitNeedsHeader : Obligations.HdrEmitNeedsHeader := by
  intro s hb hq hv
  refine ⟨_, _, exec_hdrEmit_idle hb, exec_hdrEmit_running rfl rfl hq, ?_⟩
  exact hdrEmitStep_gate hv

end Sys2Proof.Machine
end

section
/-! PROOFS of the hazards family. A CMD write neither reads nor writes `inq`, so a push may come before or after it. -/

namespace Sys2Proof.Machine

/-! Token ownership (70_reset_and_hazards R175). -/

/-- What an idle block does with a word that does not decode (40_control R88, R95). -/
theorem writeCmd_decodeIllegal {s : State} {w : Word} {why : IllegalWord} (hb : s.busy = false)
    (hd : decode w = .illegal why) : writeCmd w s = .next (s.accept .illegal) := by
  simp [writeCmd, hb, hd, execIllegal, command_idle]

/-- Settles O14: the case of the CMD write, which BUSY and the word decide, is also its case after the push, and there
it sets the same registers. -/
theorem pushCommutesWithWrite : Obligations.PushCommutesWithWrite := by
  intro s t k w e
  rcases writeCmd_cases w s with ⟨hb, e'⟩ | ⟨hb, _, hd, e'⟩ | ⟨hb, hd, e'⟩ | ⟨hb, hd, e'⟩ | ⟨hb, hd, e'⟩ |
    ⟨hb, hd, e'⟩ | ⟨hb, hd, e'⟩ <;> cases e'.symm.trans e
  · exact writeCmd_busy (s := s.pushToken k) hb w
  · exact writeCmd_decodeIllegal (s := s.pushToken k) hb hd
  · exact (writeCmd_legal (s := s.pushToken k) hb hd).trans (exec_nop_idle hb)
  · exact (writeCmd_legal (s := s.pushToken k) hb hd).trans (exec_hdrParse_idle hb)
  · exact (writeCmd_legal (s := s.pushToken k) hb hd).trans (exec_hdrEmit_idle hb)
  · exact (writeCmd_legal (s := s.pushToken k) hb hd).trans (exec_encode_idle hb)
  · exact (writeCmd_legal (s := s.pushToken k) hb hd).trans (exec_decode_idle hb)

end Sys2Proof.Machine
end
